-- ==== Sys2Proof/Word.lean ====
section
/-! DEFINITION. The words of the hardware (spec/00_scope.md R8, R9, R10): bytes, 16-bit words, byte strings. -/

namespace Sys2Proof

/-- `Byte`: an 8-bit value (R9). -/
abbrev Byte := BitVec 8

/-- `Word`: a 16-bit value (R9). -/
abbrev Word := BitVec 16

/-- `Bytes`: a finite byte string, index 0 first on the wire (R10). -/
abbrev Bytes := List Byte

end Sys2Proof
end

