-- ==== Sys2Proof/Config.lean ====
section
/-! DEFINITION. What is fixed for the machine (spec/00_scope.md R8) and its one free value. -/

namespace Sys2Proof

/-- The outcome of `TxWrite(frame)` (R41): the transport's `write` returned a count, or an error. -/
inductive TxOutcome where
  | ok
  | fail
  deriving DecidableEq, Repr, Inhabited

namespace Config

/-- `MIN_RES_LEN` (R8): bytes accumulated before the exception check, and the length of an exception reply. -/
abbrev minResLen : Nat := 5

/-- `MAX_EXP_LEN` (R8): the longest predicted reply, and the bound on `RXBUF` (R51). -/
abbrev maxExpLen : Nat := 131075

/-- `PAYLOAD_CAP` (R8). -/
abbrev payloadCap : Nat := 255

/-- The longest WriteMultiCoils list (R8, R148). -/
abbrev maxCoils : Nat := 2040

/-- The longest WriteMultiRegisters list (R8, R148). -/
abbrev maxValues : Nat := 127

/-- The longest WriteMultiRegistersVendor list (R8, R148). -/
abbrev maxVendorValues : Nat := 32767

/-- The outcome of the n-th `TxWrite` that the run's list of outcomes does not settle: "a draw of the step, not a
function of the block's state" (R41, 93 U16). A free value: it has no body, so nothing can be proved of it. Log 5. -/
opaque freeTxOutcome : Nat → TxOutcome

end Config
end Sys2Proof
end

