-- ==== Sys2Proof/Syntax.lean ====
section
/-! DEFINITION. The instructions: one constructor per row of spec/opcode_table.json (nine requests, eight normal
replies, eight exception replies), the request descriptor `Req` (R35) and the command `EXCHANGE(req, order_sel)` (R37). -/

namespace Sys2Proof

/-- The two checksum byte orders (R56). -/
inductive ChecksumOrder where
  | lowFirst
  | highFirst
  deriving DecidableEq, Repr, Inhabited

/-- The request descriptor (R35): "each variant carries only the fields it needs". The list bounds of R35 are
`Req.admitted` (R148). -/
inductive Req where
  | readCoils (addr : Byte) (offset count : Word)
  | readInputs (addr : Byte) (offset count : Word)
  | readHoldingRegisters (addr : Byte) (offset count : Word)
  | readInputRegisters (addr : Byte) (offset count : Word)
  | writeSingleCoil (addr : Byte) (offset : Word) (on : Bool)
  | writeSingleRegister (addr : Byte) (offset value : Word)
  | writeMultiCoils (addr : Byte) (offset : Word) (coils : List Bool)
  | writeMultiRegisters (addr : Byte) (offset : Word) (values : List Word)
  | writeMultiRegistersVendor (addr : Byte) (offset : Word) (values : List Word)
  deriving DecidableEq, Repr

/-- One `EXCHANGE(req, order_sel)` command (R37): a descriptor and the selector byte given with it (R36). -/
structure Command where
  req : Req
  sel : Byte
  deriving DecidableEq, Repr

/-- The instructions. A request row is a line of the command notation (R90): the request's operands and the selector
byte `sel`. A reply row is a received frame (R78 to R80): its fields in wire order, `crcA` and `crcB` the two checksum
bytes as received. -/
inductive Instr where
  /-- ReadCoils (R126). -/
  | readCoils (addr : Byte) (offset count : Word) (sel : Byte)
  /-- ReadInputs (R127). -/
  | readInputs (addr : Byte) (offset count : Word) (sel : Byte)
  /-- ReadHoldingRegisters (R128). -/
  | readHoldingRegisters (addr : Byte) (offset count : Word) (sel : Byte)
  /-- ReadInputRegisters (R130). -/
  | readInputRegisters (addr : Byte) (offset count : Word) (sel : Byte)
  /-- WriteSingleCoil (R143). -/
  | writeSingleCoil (addr : Byte) (offset : Word) (on : Bool) (sel : Byte)
  /-- WriteSingleRegister (R144). -/
  | writeSingleRegister (addr : Byte) (offset value : Word) (sel : Byte)
  /-- WriteMultiCoils (R145). -/
  | writeMultiCoils (addr : Byte) (offset : Word) (coils : List Bool) (sel : Byte)
  /-- WriteMultiRegisters (R146). -/
  | writeMultiRegisters (addr : Byte) (offset : Word) (values : List Word) (sel : Byte)
  /-- WriteMultiRegistersVendor (R147). -/
  | writeMultiRegistersVendor (addr : Byte) (offset : Word) (values : List Word) (sel : Byte)
  /-- reply.normal.0x01, a ReadCoils reply (R78): `data` is every byte between BC and the checksum. -/
  | replyNormal01 (addr bc : Byte) (data : List Byte) (crcA crcB : Byte)
  /-- reply.normal.0x02, a ReadInputs reply (R78). -/
  | replyNormal02 (addr bc : Byte) (data : List Byte) (crcA crcB : Byte)
  /-- reply.normal.0x03, a ReadHoldingRegisters reply (R78). -/
  | replyNormal03 (addr bc : Byte) (data : List Byte) (crcA crcB : Byte)
  /-- reply.normal.0x04, a ReadInputRegisters reply (R78). -/
  | replyNormal04 (addr bc : Byte) (data : List Byte) (crcA crcB : Byte)
  /-- reply.normal.0x05, a WriteSingleCoil reply (R79): two echoed words. -/
  | replyNormal05 (addr : Byte) (echo1 echo2 : Word) (crcA crcB : Byte)
  /-- reply.normal.0x06, a WriteSingleRegister reply (R79). -/
  | replyNormal06 (addr : Byte) (echo1 echo2 : Word) (crcA crcB : Byte)
  /-- reply.normal.0x0F, a WriteMultiCoils reply (R79). -/
  | replyNormal0F (addr : Byte) (echo1 echo2 : Word) (crcA crcB : Byte)
  /-- reply.normal.0x10, a WriteMultiRegisters or vendor reply (R79). -/
  | replyNormal10 (addr : Byte) (echo1 echo2 : Word) (crcA crcB : Byte)
  /-- reply.exception.0x81 (R80): `code` is the exception code. -/
  | replyException81 (addr code crcA crcB : Byte)
  /-- reply.exception.0x82 (R80). -/
  | replyException82 (addr code crcA crcB : Byte)
  /-- reply.exception.0x83 (R80). -/
  | replyException83 (addr code crcA crcB : Byte)
  /-- reply.exception.0x84 (R80). -/
  | replyException84 (addr code crcA crcB : Byte)
  /-- reply.exception.0x85 (R80). -/
  | replyException85 (addr code crcA crcB : Byte)
  /-- reply.exception.0x86 (R80). -/
  | replyException86 (addr code crcA crcB : Byte)
  /-- reply.exception.0x8F (R80). -/
  | replyException8F (addr code crcA crcB : Byte)
  /-- reply.exception.0x90 (R80). -/
  | replyException90 (addr code crcA crcB : Byte)
  deriving DecidableEq, Repr

end Sys2Proof
end

