-- ==== Sys2Proof/Machine/State.lean ====
section
/-! DEFINITION. The machine's state as plain data (spec/10_state.md R21), the data of the agents outside the block, the
reset state (spec/70_reset_and_hazards.md R270), and the reasons a step can stop. -/

namespace Sys2Proof.Machine

/-- `PHASE` (R24). -/
inductive Phase where
  | idle
  | awaitingResponse
  deriving DecidableEq, Repr

/-- The nine result kinds (R34, R240). Their 4-bit codes are `statusCode`. -/
inductive Status where
  | ok
  | configurationError
  | transportError
  | timeoutError
  | checksumError
  | protocolError
  | slaveException
  | unknownSlaveException
  | lengthError
  deriving DecidableEq, Repr

/-- The kinds of slave exception (R172). Their text is out of scope (R6). -/
inductive ExceptionKind where
  | illegalFunction
  | illegalDataAddress
  | illegalDataValue
  | slaveDeviceFailure
  | acknowledge
  | slaveDeviceBusy
  | gatewayPathUnavailable
  | gatewayTargetDeviceFailedToRespond
  deriving DecidableEq, Repr

/-- A result triple `(status, info, data)` (R170). -/
structure Result where
  status : Status
  info : Byte
  data : Bytes
  deriving DecidableEq, Repr

/-- What the transport answers to one `RxRead` (R42). In `State.rx`, `data bs` is bytes it holds for the reads to
come, of any number; a read takes at most its capacity of them. -/
inductive RxOutcome where
  | data (bs : List Byte)
  | zero
  | fail
  deriving DecidableEq, Repr

/-- The query ports (R38, R111, R181). -/
inductive Query where
  | crc16 (bs : List Byte)
  | serialize (req : Req) (ord : ChecksumOrder)
  | functionCode (req : Req)
  | expectedResponseLength (req : Req)
  | parse (raw : List Byte) (fc : Byte)
  | decodeException (code : Byte)
  deriving DecidableEq, Repr

/-- What the host may read: `DONE` and the result registers (R39), nothing else (R23). No port shows `PHASE` or the
context: whether an exchange entered AwaitingResponse, the host "does not observe" (R242). -/
inductive ResultPort where
  | done
  | status
  | info
  | count
  | payload (index : Nat)
  deriving DecidableEq, Repr

/-- An answer of a query or a read. -/
inductive Answer where
  | bit (b : Bool)
  | code (c : BitVec 4)
  | byte (b : Byte)
  | word (w : Word)
  | length (n : Nat)
  | bytes (bs : List Byte)
  | result (r : Result)
  deriving DecidableEq, Repr

/-- A move of the host other than offering a command: RESET (R92, R270), open and close of the transport (R43), a
query (R38), a read of a result port (R39). -/
inductive HostMove where
  | reset
  | openTransport
  | closeTransport
  | query (q : Query)
  | read (p : ResultPort)
  deriving DecidableEq, Repr

/-- Who moves next (R20). -/
inductive Turn where
  | block
  | host (m : HostMove)
  deriving DecidableEq, Repr

/-- What a run shows outside the block (R223), and the answers the host got (R38, R39). -/
inductive Event where
  | txWrite (frame : List Byte)
  | rxRead (cap : Nat)
  | answered (a : Answer)
  deriving DecidableEq, Repr

/-- The state. The first ten fields are the block's (R21; the ROM `CRC_TABLE` is the constant `crcTable`, log 2). The
others are the model's own data of the agents outside the block. -/
structure State where
  /-- `PHASE` (R24). -/
  phase : Phase
  /-- `CTX_ORDER` (R25). -/
  ctxOrder : ChecksumOrder
  /-- `CTX_FC` (R26). -/
  ctxFc : Byte
  /-- `CTX_EXPLEN` (R27). -/
  ctxExplen : Nat
  /-- `RXBUF` (R28, R51). -/
  rxbuf : List Byte
  /-- `DONE` (R29). -/
  done : Bool
  /-- `RES_STATUS` (R31, R34). -/
  resStatus : BitVec 4
  /-- `RES_INFO` (R31). -/
  resInfo : Byte
  /-- `RES_COUNT` (R31). -/
  resCount : Nat
  /-- `PAYLOAD` (R32). -/
  payload : Vector Byte 255
  /-- The commands waiting at the command port, in the order they are served (R37, R218; `ARB` is this order, log 6). -/
  port : List Command
  /-- The outcomes of the coming `TxWrite` calls (R41, log 5). -/
  tx : List TxOutcome
  /-- What the transport answers to the coming reads, held bytes included, oldest first (R42, R44, log 4). -/
  rx : List RxOutcome
  /-- The turns to come; none listed lets the block move (R20, log 7). -/
  turns : List Turn
  /-- How many write outcomes were drawn past the end of `tx` (log 5). -/
  draws : Nat
  /-- The events of the run, in step order (R223, log 8). -/
  trace : List Event
  deriving DecidableEq, Repr

/-- Why the machine stops with a fault. -/
inductive Fault where
  /-- The host read `RES_STATUS`, `RES_INFO` or `RES_COUNT` while `DONE = 0` (R39, 93 U3: "such a read gives no value").
  Raised by a host read. Safe. -/
  | resultNotReady
  /-- The host read a `PAYLOAD` byte outside `PAYLOAD[0..RES_COUNT)` of a finished exchange with status OK (R32, R39, 93
  U3). Raised by a host read. Safe. -/
  | payloadNotReadable
  deriving DecidableEq, Repr

/-- Why the machine gives no meaning. -/
inductive Refusal where
  /-- An instruction that has no meaning yet. Raised by a refused arm of `exec`. Safe. -/
  | notModelled (mnemonic : String)
  /-- A multi write whose list its length fields cannot describe (R148, 93 U8: `refuse`). Raised by the multi writes and
  by queries about such a request. Safe. -/
  | listTooLong
  /-- The host closed the transport while BUSY (R276, 93 U1: "the model has no meaning for what follows"). Raised by the
  host's close move. Safe. -/
  | closeWhileBusy
  /-- `parse` queried with fewer than 3 bytes or an fc outside the eight codes (R181, 93 U7: `refuse`). Raised by the
  query. Safe. -/
  | parseOperands
  deriving DecidableEq, Repr

/-- The state after reset (R270): Idle, `RXBUF` empty, `DONE = 0`; the fields R270 leaves unspecified at the values log
1 names; nothing listed outside the block (logs 4 to 9). -/
def State.reset : State where
  phase := .idle
  ctxOrder := .lowFirst
  ctxFc := 0x00#8
  ctxExplen := 5
  rxbuf := []
  done := false
  resStatus := 0x0#4
  resInfo := 0x00#8
  resCount := 0
  payload := Vector.replicate 255 0x00#8
  port := []
  tx := []
  rx := []
  turns := []
  draws := 0
  trace := []

end Sys2Proof.Machine
end

