-- ==== Sys2Proof/Machine/Flags.lean ====
section
/-! DEFINITION. The flags and the status code: `RES_STATUS` values (R34), `BUSY` (R30). -/

namespace Sys2Proof.Machine

/-- The 4-bit code of a result kind (R34, R240). -/
def statusCode : Status → BitVec 4
  | .ok => 0x0#4
  | .configurationError => 0x1#4
  | .transportError => 0x2#4
  | .timeoutError => 0x3#4
  | .checksumError => 0x4#4
  | .protocolError => 0x5#4
  | .slaveException => 0x6#4
  | .unknownSlaveException => 0x7#4
  | .lengthError => 0x8#4

/-- `BUSY = (PHASE = AwaitingResponse)` (R30): computed, not stored, and no port shows it (R23, R242). -/
def busy (s : State) : Bool := decide (s.phase = .awaitingResponse)

end Sys2Proof.Machine
end

