-- ==== Sys2Proof/Machine/Buffers.lean ====
section
/-! DEFINITION. The buffer primitives of spec/20_memory.md R52. -/

namespace Sys2Proof.Machine

/-- `MemRead(BUF, i, n)` (R52): the bytes `BUF[i..i+n)`, used where `i + n <= |BUF|`. -/
def memRead (buf : Bytes) (i n : Nat) : Bytes := (buf.drop i).take n

/-- `MemWrite(PAYLOAD, i, bs)` (R52): `BUF[i+k] <- bs[k]`, every other byte unchanged; used where `i + |bs| <= 255`. -/
def memWrite (buf : Vector Byte 255) (i : Nat) (bs : Bytes) : Vector Byte 255 :=
  ⟨((buf.toList.take i ++ bs ++ buf.toList.drop (i + bs.length)).take 255).toArray, by
    simp only [List.size_toArray, List.length_take, List.length_append, List.length_drop, Vector.length_toList]
    omega⟩

end Sys2Proof.Machine
end

