-- ==== Sys2Proof/Machine/Operands.lean ====
section
/-! DEFINITION. Operand forms: byte order (spec/20_memory.md R55 to R58), operand assembly (R89), coil packing (R140),
the single-coil value (R141), the selector (R36), list admission (R148), and commands as instructions (R91). -/

namespace Sys2Proof.Machine

/-- `hi8(w) = w[15:8]` (R10). -/
def hi8 (w : Word) : Byte := w.extractLsb' 8 8

/-- `lo8(w) = w[7:0]` (R10). -/
def lo8 (w : Word) : Byte := w.extractLsb' 0 8

/-- `be16(w) = [hi8(w), lo8(w)]` (R10, R55). -/
def be16 (w : Word) : Bytes := [hi8 w, lo8 w]

/-- The word whose big-endian form is `[h, l]`: `h * 256 + l`. -/
def ofBe16 (h l : Byte) : Word := h ++ l

/-- A count as a 16-bit field (R89). Every admitted list's count fits (R148). -/
def word16 (n : Nat) : Word := BitVec.ofNat 16 n

/-- `ceil8(n) = (n + 7) div 8` (R9). -/
def ceil8 (n : Nat) : Nat := (n + 7) / 8

/-- `be16(values[0]) ++ … ++ be16(values[n-1])` (R57, R146). -/
def valueBytes (values : List Word) : Bytes := values.flatMap be16

/-- The words whose big-endian bytes these are; a last odd byte is left out. -/
def wordsOf : Bytes → List Word
  | h :: l :: rest => ofBe16 h l :: wordsOf rest
  | _ => []

/-- Byte `k` of the packed coils: bit `j` is coil `8k + j` (R58, R140); bits beyond the last coil are 0. -/
def packByte (coils : List Bool) (k : Nat) : Byte :=
  (List.range 8).foldl (fun out j => if coils.getD (8 * k + j) false then out ||| (1#8 <<< j) else out) 0#8

/-- `pack(coils)` (R140): `ceil8(|coils|)` bytes, coil `i` in bit `i mod 8` of byte `i div 8`. -/
def pack (coils : List Bool) : Bytes := (List.range (ceil8 coils.length)).map (packByte coils)

/-- The first `n` coils of a packed bitmap: the inverse of `pack`. -/
def unpack (n : Nat) (bitmap : Bytes) : List Bool :=
  (List.range n).map fun i => (bitmap.getD (i / 8) 0#8).getLsbD (i % 8)

/-- The value a WriteSingleCoil sends (R141). -/
def coilValue (on : Bool) : Word := if on then 0xFF00#16 else 0x0000#16

/-- The selector byte (R36): 0x00 LowFirst, 0x01 HighFirst, every other value invalid. -/
def selectedOrder (sel : Byte) : Option ChecksumOrder :=
  if sel = 0x00#8 then some .lowFirst else if sel = 0x01#8 then some .highFirst else none

/-- The selector byte of an order (R36). -/
def selectorOf : ChecksumOrder → Byte
  | .lowFirst => 0x00#8
  | .highFirst => 0x01#8

/-- Length admission (R35, R148): a list longer than its length fields can describe is not admitted. -/
def admitted : Req → Bool
  | .writeMultiCoils _ _ coils => decide (coils.length ≤ Config.maxCoils)
  | .writeMultiRegisters _ _ values => decide (values.length ≤ Config.maxValues)
  | .writeMultiRegistersVendor _ _ values => decide (values.length ≤ Config.maxVendorValues)
  | .readCoils _ _ _ => true
  | .readInputs _ _ _ => true
  | .readHoldingRegisters _ _ _ => true
  | .readInputRegisters _ _ _ => true
  | .writeSingleCoil _ _ _ => true
  | .writeSingleRegister _ _ _ => true

/-- A command as the line of the command notation that expands to it (R91). -/
def instrOf (c : Command) : Instr :=
  match c.req with
  | .readCoils addr offset count => .readCoils addr offset count c.sel
  | .readInputs addr offset count => .readInputs addr offset count c.sel
  | .readHoldingRegisters addr offset count => .readHoldingRegisters addr offset count c.sel
  | .readInputRegisters addr offset count => .readInputRegisters addr offset count c.sel
  | .writeSingleCoil addr offset on => .writeSingleCoil addr offset on c.sel
  | .writeSingleRegister addr offset value => .writeSingleRegister addr offset value c.sel
  | .writeMultiCoils addr offset coils => .writeMultiCoils addr offset coils c.sel
  | .writeMultiRegisters addr offset values => .writeMultiRegisters addr offset values c.sel
  | .writeMultiRegistersVendor addr offset values => .writeMultiRegistersVendor addr offset values c.sel

/-- The command a request row expands to (R91); a reply row is no command. -/
def commandOf : Instr → Option Command
  | .readCoils addr offset count sel => some ⟨.readCoils addr offset count, sel⟩
  | .readInputs addr offset count sel => some ⟨.readInputs addr offset count, sel⟩
  | .readHoldingRegisters addr offset count sel => some ⟨.readHoldingRegisters addr offset count, sel⟩
  | .readInputRegisters addr offset count sel => some ⟨.readInputRegisters addr offset count, sel⟩
  | .writeSingleCoil addr offset on sel => some ⟨.writeSingleCoil addr offset on, sel⟩
  | .writeSingleRegister addr offset value sel => some ⟨.writeSingleRegister addr offset value, sel⟩
  | .writeMultiCoils addr offset coils sel => some ⟨.writeMultiCoils addr offset coils, sel⟩
  | .writeMultiRegisters addr offset values sel => some ⟨.writeMultiRegisters addr offset values, sel⟩
  | .writeMultiRegistersVendor addr offset values sel => some ⟨.writeMultiRegistersVendor addr offset values, sel⟩
  | .replyNormal01 _ _ _ _ _ => none
  | .replyNormal02 _ _ _ _ _ => none
  | .replyNormal03 _ _ _ _ _ => none
  | .replyNormal04 _ _ _ _ _ => none
  | .replyNormal05 _ _ _ _ _ => none
  | .replyNormal06 _ _ _ _ _ => none
  | .replyNormal0F _ _ _ _ _ => none
  | .replyNormal10 _ _ _ _ _ => none
  | .replyException81 _ _ _ _ => none
  | .replyException82 _ _ _ _ => none
  | .replyException83 _ _ _ _ => none
  | .replyException84 _ _ _ _ => none
  | .replyException85 _ _ _ _ => none
  | .replyException86 _ _ _ _ => none
  | .replyException8F _ _ _ _ => none
  | .replyException90 _ _ _ _ => none

end Sys2Proof.Machine
end

