-- ==== Sys2Proof/Machine/Checksum.lean ====
section
/-! DEFINITION. The Checksum Engine (spec/40_checksum.md). -/

namespace Sys2Proof.Machine

/-- One step of the table generation (R100): test bit 0, shift right, xor 0xA001 if the bit was 1. -/
def crcShift (c : Word) : Word := if c.getLsbD 0 then (c >>> 1) ^^^ 0xA001#16 else c >>> 1

/-- Eight steps (R100). -/
def crcShift8 (c : Word) : Word :=
  crcShift (crcShift (crcShift (crcShift (crcShift (crcShift (crcShift (crcShift c)))))))

/-- The ROM `CRC_TABLE` (R33, R100): "a constant ROM, valid from reset, and no rule writes it". Log 2. -/
def crcTable (b : Byte) : Word := crcShift8 (b.setWidth 16)

/-- One byte of the fold (R102): `(c >> 8) xor CRC_TABLE[lo8(c) xor byte]`. -/
def crcUpdate (c : Word) (b : Byte) : Word := (c >>> 8) ^^^ crcTable (lo8 c ^^^ b)

/-- The fold of R102 over `bs` from the value `c` (R103). -/
def crcFrom (c : Word) (bs : Bytes) : Word := bs.foldl crcUpdate c

/-- `crc16(bs)` (R102): the fold from 0xFFFF. -/
def crc16 (bs : Bytes) : Word := crcFrom 0xFFFF#16 bs

/-- The bit-serial form of R104. -/
def crcBitSerial (bs : Bytes) : Word := bs.foldl (fun c b => crcShift8 (c ^^^ b.setWidth 16)) 0xFFFF#16

/-- `place(c, ord)` (R105). -/
def place (c : Word) : ChecksumOrder → Bytes
  | .lowFirst => [lo8 c, hi8 c]
  | .highFirst => [hi8 c, lo8 c]

/-- `unplace(b0, b1, ord)` (R106): `b1 * 256 + b0` for LowFirst, `b0 * 256 + b1` for HighFirst. -/
def unplace (b0 b1 : Byte) : ChecksumOrder → Word
  | .lowFirst => ofBe16 b1 b0
  | .highFirst => ofBe16 b0 b1

/-- `seal(body, ord)` (R107). -/
def sealFrame (body : Bytes) (ord : ChecksumOrder) : Bytes := body ++ place (crc16 body) ord

/-- `check(f, ord)` (R108), used for `|f| >= 2`. -/
def check (f : Bytes) (ord : ChecksumOrder) : Bool :=
  decide (unplace (f.getD (f.length - 2) 0#8) (f.getD (f.length - 1) 0#8) ord = crc16 (f.take (f.length - 2)))

end Sys2Proof.Machine
end

