-- ==== Sys2Proof/Machine/Codec.lean ====
section
/-! DEFINITION. The Frame Codec: request bodies, serialization, function codes and expected reply lengths
(spec/41_frame_codec_read.md, spec/42_frame_codec_write.md), and the reply frames (spec/30_encoding.md R78 to R80). -/

namespace Sys2Proof.Machine

/-- `function_code(req)` (R129). -/
def functionCode : Req → Byte
  | .readCoils _ _ _ => 0x01#8
  | .readInputs _ _ _ => 0x02#8
  | .readHoldingRegisters _ _ _ => 0x03#8
  | .readInputRegisters _ _ _ => 0x04#8
  | .writeSingleCoil _ _ _ => 0x05#8
  | .writeSingleRegister _ _ _ => 0x06#8
  | .writeMultiCoils _ _ _ => 0x0F#8
  | .writeMultiRegisters _ _ _ => 0x10#8
  | .writeMultiRegistersVendor _ _ _ => 0x10#8

/-- `expected_response_length(req)` (R122, R123, R142), in unbounded naturals. -/
def expectedResponseLength : Req → Nat
  | .readCoils _ _ count => ceil8 count.toNat + 5
  | .readInputs _ _ count => ceil8 count.toNat + 5
  | .readHoldingRegisters _ _ count => 2 * count.toNat + 5
  | .readInputRegisters _ _ count => 2 * count.toNat + 5
  | .writeSingleCoil _ _ _ => 8
  | .writeSingleRegister _ _ _ => 8
  | .writeMultiCoils _ _ _ => 8
  | .writeMultiRegisters _ _ _ => 8
  | .writeMultiRegistersVendor _ _ _ => 8

/-- The six header bytes of a request (R73 to R77): address, function code, offset and the 16-bit field. -/
def requestHeader (addr fc : Byte) (offset field : Word) : Bytes := [addr, fc] ++ be16 offset ++ be16 field

/-- The frame of a request less its checksum (R120, R143 to R147). -/
def requestBody : Req → Bytes
  | .readCoils addr offset count => requestHeader addr 0x01#8 offset count
  | .readInputs addr offset count => requestHeader addr 0x02#8 offset count
  | .readHoldingRegisters addr offset count => requestHeader addr 0x03#8 offset count
  | .readInputRegisters addr offset count => requestHeader addr 0x04#8 offset count
  | .writeSingleCoil addr offset on => requestHeader addr 0x05#8 offset (coilValue on)
  | .writeSingleRegister addr offset value => requestHeader addr 0x06#8 offset value
  | .writeMultiCoils addr offset coils =>
    requestHeader addr 0x0F#8 offset (word16 coils.length) ++ [BitVec.ofNat 8 (ceil8 coils.length)] ++ pack coils
  | .writeMultiRegisters addr offset values =>
    requestHeader addr 0x10#8 offset (word16 values.length) ++ [BitVec.ofNat 8 (2 * values.length)] ++ valueBytes values
  | .writeMultiRegistersVendor addr offset values =>
    requestHeader addr 0x10#8 offset (word16 values.length) ++ be16 (word16 (2 * values.length)) ++ valueBytes values

/-- `serialize(req, ord)` (R202): the sealed body. -/
def serialize (req : Req) (ord : ChecksumOrder) : Bytes := sealFrame (requestBody req) ord

/-- A read reply, format F-RR (R78). -/
def readReplyFrame (fc addr bc : Byte) (data : Bytes) (crcA crcB : Byte) : Bytes :=
  [addr, fc, bc] ++ data ++ [crcA, crcB]

/-- A write reply, format F-WR (R79). -/
def writeReplyFrame (fc addr : Byte) (echo1 echo2 : Word) (crcA crcB : Byte) : Bytes :=
  [addr, fc] ++ be16 echo1 ++ be16 echo2 ++ [crcA, crcB]

/-- An exception reply to a request with function code `fc`, format F-EX (R80). -/
def exceptionFrame (fc addr code crcA crcB : Byte) : Bytes := [addr, fc ||| 0x80#8, code, crcA, crcB]

/-- The eight function codes (R81). -/
def functionCodes : List Byte := [0x01#8, 0x02#8, 0x03#8, 0x04#8, 0x05#8, 0x06#8, 0x0F#8, 0x10#8]

/-- `is_read(fc)` (R174). -/
def isRead (fc : Byte) : Bool := fc == 0x01#8 || fc == 0x02#8 || fc == 0x03#8 || fc == 0x04#8

end Sys2Proof.Machine
end

