-- ==== Sys2Proof/Machine/Parser.lean ====
section
/-! DEFINITION. The Response Parser and exception decoder (spec/43_response_parser.md): pure functions (R180). -/

namespace Sys2Proof.Machine

/-- The slave-exception mapping (R172): "a small closed mapping from a 1-byte code". -/
def exceptionTable : List (Byte × ExceptionKind) :=
  [(0x01#8, .illegalFunction), (0x02#8, .illegalDataAddress), (0x03#8, .illegalDataValue),
   (0x04#8, .slaveDeviceFailure), (0x05#8, .acknowledge), (0x06#8, .slaveDeviceBusy),
   (0x0A#8, .gatewayPathUnavailable), (0x0B#8, .gatewayTargetDeviceFailedToRespond)]

/-- The kind of an exception code (R172); none for an unmapped code. -/
def exceptionKind (code : Byte) : Option ExceptionKind := exceptionTable.lookup code

/-- `decode_exception(code)` (R172): "an unmapped code is an unknown-exception error rather than a silent default". -/
def decodeException (code : Byte) : Result :=
  match exceptionKind code with
  | some _ => ⟨.slaveException, code, []⟩
  | none => ⟨.unknownSlaveException, code, []⟩

/-- `parse_read(raw)` (R175, R176). -/
def parseRead (raw : Bytes) : Result :=
  let bc := raw.getD 2 0#8
  if raw.length < 3 + bc.toNat then ⟨.lengthError, bc, []⟩ else ⟨.ok, 0x00#8, memRead raw 3 bc.toNat⟩

/-- `parse(raw, fc)` (R171): compares byte 1 only. -/
def parse (raw : Bytes) (fc : Byte) : Result :=
  let b1 := raw.getD 1 0#8
  if b1 = fc then
    if isRead fc then parseRead raw else ⟨.ok, 0x00#8, []⟩
  else if b1 = (fc ||| 0x80#8) then decodeException (raw.getD 2 0#8)
  else ⟨.protocolError, b1, []⟩

end Sys2Proof.Machine
end

