-- ==== Sys2Proof/Machine/Ops.lean ====
section
/-! DEFINITION. The shared operations of the exchange (spec/44_master_exchange.md): `finish`, error entry, the write
phase, the target length, one read, completion, and the arrival of a reply frame. -/

namespace Sys2Proof.Machine

/-- Record an event of the run (R223). -/
def record (e : Event) (s : State) : State := { s with trace := s.trace ++ [e] }

/-- `finish((status, info, data))` (R215): the last action of its step. -/
def finish (r : Result) (s : State) : State :=
  { s with
    resStatus := statusCode r.status
    resInfo := r.info
    resCount := r.data.length
    payload := if r.status = .ok then memWrite s.payload 0 r.data else s.payload
    phase := .idle
    done := true }

/-- Error entry, this machine's exception (R251): `raise E(info)` is `finish((E, info, []))` (R11). There is no return
instruction (R253). -/
def raise (e : Status) (info : Byte) (s : State) : State := finish ⟨e, info, []⟩ s

/-- The outcome of the next `TxWrite` (R41): the run's own, or the free value past the end of the list. Log 5. -/
def txOutcome (s : State) : TxOutcome :=
  match s.tx with
  | o :: _ => o
  | [] => Config.freeTxOutcome s.draws

/-- The state after that outcome is drawn. -/
def txAdvance (s : State) : State :=
  match s.tx with
  | _ :: os => { s with tx := os }
  | [] => { s with draws := s.draws + 1 }

/-- `enter_awaiting(req, ord)` (R204). -/
def enterAwaiting (req : Req) (ord : ChecksumOrder) (s : State) : State :=
  { s with
    ctxOrder := ord
    ctxFc := functionCode req
    ctxExplen := expectedResponseLength req
    rxbuf := []
    phase := .awaitingResponse }

/-- The write phase with a valid selector (R200, R202 to R204): one `TxWrite` of the whole frame. -/
def writeFrame (req : Req) (ord : ChecksumOrder) (s : State) : State :=
  let s1 := txAdvance (record (.txWrite (serialize req ord)) s)
  match txOutcome s with
  | .fail => raise .transportError 0x00#8 s1
  | .ok => enterAwaiting req ord s1

/-- The acceptance step (R200): `DONE` cleared, selector checked before any I/O (R201), then the write phase. -/
def accept (req : Req) (sel : Byte) (s : State) : State :=
  match selectedOrder sel with
  | none => raise .configurationError 0x00#8 { s with done := false }
  | some ord => writeFrame req ord { s with done := false }

/-- The command goes back to the head of the command port: held, "not accepted, not lost" (R37). -/
def hold (req : Req) (sel : Byte) (s : State) : State := { s with port := ⟨req, sel⟩ :: s.port }

/-- `EXCHANGE(req, order_sel)` (R200): refused if its list is not admitted (R148), accepted in Idle, held while BUSY
(R37, R221). -/
def exchange (req : Req) (sel : Byte) (s : State) : Host.Outcome State Fault Refusal :=
  if admitted req then
    match s.phase with
    | .idle => .next (accept req sel s)
    | .awaitingResponse => .next (hold req sel s)
  else .refused .listTooLong

/-- `target(buf)` (R205) for the context `fc`, `explen`. -/
def target (fc : Byte) (explen : Nat) (buf : Bytes) : Nat :=
  if buf.length < Config.minResLen then Config.minResLen
  else if buf.getD 1 0#8 = (fc ||| 0x80#8) then Config.minResLen
  else explen

/-- Frame complete (R210): validate (R211), then decode (R212), on the accumulated `RXBUF`. -/
def completeFrame (s : State) : State :=
  if check s.rxbuf s.ctxOrder then finish (parse (s.rxbuf.take (s.rxbuf.length - 2)) s.ctxFc) s
  else raise .checksumError 0x00#8 s

/-- Bytes no read takes stay in the transport, before what it will give later (R44, R206). -/
def leaveInTransport (bs : Bytes) (rx : List RxOutcome) : List RxOutcome :=
  match bs with
  | [] => rx
  | b :: more => .data (b :: more) :: rx

/-- A reply frame `f` as the whole of what the exchange has accumulated. In AwaitingResponse: short of its target it is
kept and the block reads on (R207); at its target the frame is complete (R210), and bytes past the target, which no
read asks for, stay in the transport (R206). In Idle the block reads nothing and the frame stays in the transport
(R217, R44). Log 11. -/
def acceptReply (f : Bytes) (s : State) : Host.Outcome State Fault Refusal :=
  match s.phase with
  | .idle => .next { s with rx := s.rx ++ leaveInTransport f [] }
  | .awaitingResponse =>
    let t := target s.ctxFc s.ctxExplen f
    if f.length < t then .next { s with rxbuf := f }
    else .next (completeFrame { s with rxbuf := f.take t, rx := leaveInTransport (f.drop t) s.rx })

/-- One `RxRead(cap)` (R42): its outcome, `1 <= |bs| <= cap` for data, and what the transport answers afterwards.
Bytes held past `cap` stay first. No bytes held is a zero-byte return. `none`: the transport has not answered yet
(R281). Log 4. -/
def rxRead (cap : Nat) (rx : List RxOutcome) : Option (RxOutcome × List RxOutcome) :=
  match rx with
  | [] => none
  | .data bs :: rest =>
    match bs with
    | [] => some (.zero, rest)
    | b :: more => some (.data ((b :: more).take cap), leaveInTransport ((b :: more).drop cap) rest)
  | .zero :: rest => some (.zero, rest)
  | .fail :: rest => some (.fail, rest)

end Sys2Proof.Machine
end

