-- ==== Sys2Proof/Machine/ExceptionReplies.lean ====
section
/-! DEFINITION. The eight exception replies (spec/30_encoding.md R80): the accumulated frame is validated (R210, R211)
and its code decoded (R172, R173). -/

namespace Sys2Proof.Machine

/-- reply.exception.0x81 (R173), to function code 0x01. -/
def execReplyException81 (addr code crcA crcB : Byte) (s : State) : Host.Outcome State Fault Refusal :=
  acceptReply (exceptionFrame 0x01#8 addr code crcA crcB) s

/-- reply.exception.0x82 (R173), to function code 0x02. -/
def execReplyException82 (addr code crcA crcB : Byte) (s : State) : Host.Outcome State Fault Refusal :=
  acceptReply (exceptionFrame 0x02#8 addr code crcA crcB) s

/-- reply.exception.0x83 (R173), to function code 0x03. -/
def execReplyException83 (addr code crcA crcB : Byte) (s : State) : Host.Outcome State Fault Refusal :=
  acceptReply (exceptionFrame 0x03#8 addr code crcA crcB) s

/-- reply.exception.0x84 (R173), to function code 0x04. -/
def execReplyException84 (addr code crcA crcB : Byte) (s : State) : Host.Outcome State Fault Refusal :=
  acceptReply (exceptionFrame 0x04#8 addr code crcA crcB) s

/-- reply.exception.0x85 (R173), to function code 0x05. -/
def execReplyException85 (addr code crcA crcB : Byte) (s : State) : Host.Outcome State Fault Refusal :=
  acceptReply (exceptionFrame 0x05#8 addr code crcA crcB) s

/-- reply.exception.0x86 (R173), to function code 0x06. -/
def execReplyException86 (addr code crcA crcB : Byte) (s : State) : Host.Outcome State Fault Refusal :=
  acceptReply (exceptionFrame 0x06#8 addr code crcA crcB) s

/-- reply.exception.0x8F (R173), to function code 0x0F. -/
def execReplyException8F (addr code crcA crcB : Byte) (s : State) : Host.Outcome State Fault Refusal :=
  acceptReply (exceptionFrame 0x0F#8 addr code crcA crcB) s

/-- reply.exception.0x90 (R173), to function code 0x10. -/
def execReplyException90 (addr code crcA crcB : Byte) (s : State) : Host.Outcome State Fault Refusal :=
  acceptReply (exceptionFrame 0x10#8 addr code crcA crcB) s

end Sys2Proof.Machine
end

