-- ==== Sys2Proof/Machine/NormalReplies.lean ====
section
/-! DEFINITION. The eight normal replies (spec/30_encoding.md R78, R79): the accumulated frame is validated (R210, R211)
and parsed (R175 to R177), and its result stored (R215). -/

namespace Sys2Proof.Machine

/-- reply.normal.0x01 (R78, R175, R176). -/
def execReplyNormal01 (addr bc : Byte) (data : List Byte) (crcA crcB : Byte) (s : State) :
    Host.Outcome State Fault Refusal :=
  acceptReply (readReplyFrame 0x01#8 addr bc data crcA crcB) s

/-- reply.normal.0x02 (R78, R175, R176). -/
def execReplyNormal02 (addr bc : Byte) (data : List Byte) (crcA crcB : Byte) (s : State) :
    Host.Outcome State Fault Refusal :=
  acceptReply (readReplyFrame 0x02#8 addr bc data crcA crcB) s

/-- reply.normal.0x03 (R78, R175, R176). -/
def execReplyNormal03 (addr bc : Byte) (data : List Byte) (crcA crcB : Byte) (s : State) :
    Host.Outcome State Fault Refusal :=
  acceptReply (readReplyFrame 0x03#8 addr bc data crcA crcB) s

/-- reply.normal.0x04 (R78, R175, R176). -/
def execReplyNormal04 (addr bc : Byte) (data : List Byte) (crcA crcB : Byte) (s : State) :
    Host.Outcome State Fault Refusal :=
  acceptReply (readReplyFrame 0x04#8 addr bc data crcA crcB) s

/-- reply.normal.0x05 (R79, R177). -/
def execReplyNormal05 (addr : Byte) (echo1 echo2 : Word) (crcA crcB : Byte) (s : State) :
    Host.Outcome State Fault Refusal :=
  acceptReply (writeReplyFrame 0x05#8 addr echo1 echo2 crcA crcB) s

/-- reply.normal.0x06 (R79, R177). -/
def execReplyNormal06 (addr : Byte) (echo1 echo2 : Word) (crcA crcB : Byte) (s : State) :
    Host.Outcome State Fault Refusal :=
  acceptReply (writeReplyFrame 0x06#8 addr echo1 echo2 crcA crcB) s

/-- reply.normal.0x0F (R79, R177). -/
def execReplyNormal0F (addr : Byte) (echo1 echo2 : Word) (crcA crcB : Byte) (s : State) :
    Host.Outcome State Fault Refusal :=
  acceptReply (writeReplyFrame 0x0F#8 addr echo1 echo2 crcA crcB) s

/-- reply.normal.0x10 (R79, R177). -/
def execReplyNormal10 (addr : Byte) (echo1 echo2 : Word) (crcA crcB : Byte) (s : State) :
    Host.Outcome State Fault Refusal :=
  acceptReply (writeReplyFrame 0x10#8 addr echo1 echo2 crcA crcB) s

end Sys2Proof.Machine
end

