-- ==== Sys2Proof/Machine/ReadRequests.lean ====
section
/-! DEFINITION. The four read requests (spec/41_frame_codec_read.md R126 to R128, R130): each is
`EXCHANGE(req, order_sel)` (R91, R200) of its own descriptor. -/

namespace Sys2Proof.Machine

/-- ReadCoils (R126), function code 0x01. -/
def execReadCoils (addr : Byte) (offset count : Word) (sel : Byte) (s : State) : Host.Outcome State Fault Refusal :=
  exchange (.readCoils addr offset count) sel s

/-- ReadInputs (R127), function code 0x02. -/
def execReadInputs (addr : Byte) (offset count : Word) (sel : Byte) (s : State) : Host.Outcome State Fault Refusal :=
  exchange (.readInputs addr offset count) sel s

/-- ReadHoldingRegisters (R128), function code 0x03. -/
def execReadHoldingRegisters (addr : Byte) (offset count : Word) (sel : Byte) (s : State) : Host.Outcome State Fault Refusal :=
  exchange (.readHoldingRegisters addr offset count) sel s

/-- ReadInputRegisters (R130), function code 0x04. -/
def execReadInputRegisters (addr : Byte) (offset count : Word) (sel : Byte) (s : State) : Host.Outcome State Fault Refusal :=
  exchange (.readInputRegisters addr offset count) sel s

end Sys2Proof.Machine
end

