-- ==== Sys2Proof/Machine/WriteRequests.lean ====
section
/-! DEFINITION. The five write requests (spec/42_frame_codec_write.md R143 to R147): each is
`EXCHANGE(req, order_sel)` (R91, R200) of its own descriptor. -/

namespace Sys2Proof.Machine

/-- WriteSingleCoil (R143, function code 0x05). -/
def execWriteSingleCoil (addr : Byte) (offset : Word) (on : Bool) (sel : Byte) (s : State) :
    Host.Outcome State Fault Refusal :=
  exchange (.writeSingleCoil addr offset on) sel s

/-- WriteSingleRegister (R144, function code 0x06). -/
def execWriteSingleRegister (addr : Byte) (offset : Word) (value : Word) (sel : Byte) (s : State) :
    Host.Outcome State Fault Refusal :=
  exchange (.writeSingleRegister addr offset value) sel s

/-- WriteMultiCoils (R145, function code 0x0F; a list longer than 2040 is refused, R148). -/
def execWriteMultiCoils (addr : Byte) (offset : Word) (coils : List Bool) (sel : Byte) (s : State) :
    Host.Outcome State Fault Refusal :=
  exchange (.writeMultiCoils addr offset coils) sel s

/-- WriteMultiRegisters (R146, function code 0x10; a list longer than 127 is refused, R148). -/
def execWriteMultiRegisters (addr : Byte) (offset : Word) (values : List Word) (sel : Byte) (s : State) :
    Host.Outcome State Fault Refusal :=
  exchange (.writeMultiRegisters addr offset values) sel s

/-- WriteMultiRegistersVendor (R147, function code 0x10; a list longer than 32767 is refused, R148). -/
def execWriteMultiRegistersVendor (addr : Byte) (offset : Word) (values : List Word) (sel : Byte) (s : State) :
    Host.Outcome State Fault Refusal :=
  exchange (.writeMultiRegistersVendor addr offset values) sel s

end Sys2Proof.Machine
end

