-- ==== Sys2Proof/Machine/Dispatch.lean ====
section
/-! DEFINITION. One arm per constructor of Instr: its meaning. -/

namespace Sys2Proof.Machine

def exec (i : Instr) (s : State) : Host.Outcome State Fault Refusal :=
  match i with
  | .readCoils addr offset count sel => Sys2Proof.Machine.execReadCoils addr offset count sel s
  | .readInputs addr offset count sel => Sys2Proof.Machine.execReadInputs addr offset count sel s
  | .readHoldingRegisters addr offset count sel => Sys2Proof.Machine.execReadHoldingRegisters addr offset count sel s
  | .readInputRegisters addr offset count sel => Sys2Proof.Machine.execReadInputRegisters addr offset count sel s
  | .writeSingleCoil addr offset on sel => Sys2Proof.Machine.execWriteSingleCoil addr offset on sel s
  | .writeSingleRegister addr offset value sel => Sys2Proof.Machine.execWriteSingleRegister addr offset value sel s
  | .writeMultiCoils addr offset coils sel => Sys2Proof.Machine.execWriteMultiCoils addr offset coils sel s
  | .writeMultiRegisters addr offset values sel => Sys2Proof.Machine.execWriteMultiRegisters addr offset values sel s
  | .writeMultiRegistersVendor addr offset values sel => Sys2Proof.Machine.execWriteMultiRegistersVendor addr offset values sel s
  | .replyNormal01 addr bc data crcA crcB => Sys2Proof.Machine.execReplyNormal01 addr bc data crcA crcB s
  | .replyNormal02 addr bc data crcA crcB => Sys2Proof.Machine.execReplyNormal02 addr bc data crcA crcB s
  | .replyNormal03 addr bc data crcA crcB => Sys2Proof.Machine.execReplyNormal03 addr bc data crcA crcB s
  | .replyNormal04 addr bc data crcA crcB => Sys2Proof.Machine.execReplyNormal04 addr bc data crcA crcB s
  | .replyNormal05 addr echo1 echo2 crcA crcB => Sys2Proof.Machine.execReplyNormal05 addr echo1 echo2 crcA crcB s
  | .replyNormal06 addr echo1 echo2 crcA crcB => Sys2Proof.Machine.execReplyNormal06 addr echo1 echo2 crcA crcB s
  | .replyNormal0F addr echo1 echo2 crcA crcB => Sys2Proof.Machine.execReplyNormal0F addr echo1 echo2 crcA crcB s
  | .replyNormal10 addr echo1 echo2 crcA crcB => Sys2Proof.Machine.execReplyNormal10 addr echo1 echo2 crcA crcB s
  | .replyException81 addr code crcA crcB => Sys2Proof.Machine.execReplyException81 addr code crcA crcB s
  | .replyException82 addr code crcA crcB => Sys2Proof.Machine.execReplyException82 addr code crcA crcB s
  | .replyException83 addr code crcA crcB => Sys2Proof.Machine.execReplyException83 addr code crcA crcB s
  | .replyException84 addr code crcA crcB => Sys2Proof.Machine.execReplyException84 addr code crcA crcB s
  | .replyException85 addr code crcA crcB => Sys2Proof.Machine.execReplyException85 addr code crcA crcB s
  | .replyException86 addr code crcA crcB => Sys2Proof.Machine.execReplyException86 addr code crcA crcB s
  | .replyException8F addr code crcA crcB => Sys2Proof.Machine.execReplyException8F addr code crcA crcB s
  | .replyException90 addr code crcA crcB => Sys2Proof.Machine.execReplyException90 addr code crcA crcB s

end Sys2Proof.Machine
end

