-- ==== Sys2Proof/WellFormed.lean ====
section
/-! DEFINITION. Well-formed instructions: the list bounds of R35 and R148 for the multi writes, and for a read reply a
frame that `RXBUF` can hold (R51). Every other operand is any value of its type (R125, R144), an invalid selector
included: it has an effect (R201). -/

namespace Sys2Proof

/-- The data bytes of the longest read reply `RXBUF` holds (R51): the frame is `5 + |data|` bytes (R78). -/
abbrev maxReplyData : Nat := Config.maxExpLen - 5

/-- Well-formedness of an instruction. -/
def Instr.wellFormed : Instr → Bool
  | .readCoils _ _ _ _ => true
  | .readInputs _ _ _ _ => true
  | .readHoldingRegisters _ _ _ _ => true
  | .readInputRegisters _ _ _ _ => true
  | .writeSingleCoil _ _ _ _ => true
  | .writeSingleRegister _ _ _ _ => true
  | .writeMultiCoils addr offset coils _ => Machine.admitted (.writeMultiCoils addr offset coils)
  | .writeMultiRegisters addr offset values _ => Machine.admitted (.writeMultiRegisters addr offset values)
  | .writeMultiRegistersVendor addr offset values _ => Machine.admitted (.writeMultiRegistersVendor addr offset values)
  | .replyNormal01 _ _ data _ _ => decide (data.length ≤ maxReplyData)
  | .replyNormal02 _ _ data _ _ => decide (data.length ≤ maxReplyData)
  | .replyNormal03 _ _ data _ _ => decide (data.length ≤ maxReplyData)
  | .replyNormal04 _ _ data _ _ => decide (data.length ≤ maxReplyData)
  | .replyNormal05 _ _ _ _ _ => true
  | .replyNormal06 _ _ _ _ _ => true
  | .replyNormal0F _ _ _ _ _ => true
  | .replyNormal10 _ _ _ _ _ => true
  | .replyException81 _ _ _ _ => true
  | .replyException82 _ _ _ _ => true
  | .replyException83 _ _ _ _ => true
  | .replyException84 _ _ _ _ => true
  | .replyException85 _ _ _ _ => true
  | .replyException86 _ _ _ _ => true
  | .replyException8F _ _ _ _ => true
  | .replyException90 _ _ _ _ => true

end Sys2Proof
end

