-- ==== Sys2Proof/Decode.lean ====
section
/-! DEFINITION. Decoding frames into instructions, and after it the encoder.

A frame's meaning depends on who reads it. A request frame is read off the wire in a checksum order (R88: "the block
itself never decodes requests", log 15); a reply frame is read by the block against the requested function code (R84). -/

namespace Sys2Proof

open Sys2Proof.Machine

/-- What the reader of a frame knows: the checksum order of a request, or the function code a reply answers (R84). -/
inductive FrameContext where
  | request (ord : ChecksumOrder)
  | reply (fc : Byte)
  deriving DecidableEq, Repr

/-- Why a frame is no instruction. -/
inductive DecodeError where
  /-- Fewer bytes than the format's header and checksum (R71, R72). -/
  | tooShort
  /-- More bytes than `RXBUF` can hold (R51). -/
  | tooLong
  /-- The length is not the one the format's fields give (R86, R79, R80). -/
  | badLength
  /-- A byte-count field that disagrees with the count field (R75 to R77). -/
  | badByteCount
  /-- A request whose last two bytes are not its checksum (R72). -/
  | badChecksum
  /-- A byte 1 outside the opcode map (R83). -/
  | unknownFunctionCode
  /-- A reply's byte 1 that is neither the requested code nor its exception form (R84). -/
  | foreignFunctionCode
  /-- A single-coil value other than 0xFF00 and 0x0000 (R141). -/
  | badCoilValue
  /-- A coil bitmap with a bit set beyond its last coil (R140). -/
  | badPadding
  deriving DecidableEq, Repr

/-- A WriteMultiCoils body after its six header bytes (R75). -/
def decodeCoils (addr : Byte) (offset : Word) (n : Nat) : Bytes → Except DecodeError Req
  | [] => .error .tooShort
  | bc :: bitmap =>
    if bc.toNat = ceil8 n then
      if bitmap.length = ceil8 n then
        if pack (unpack n bitmap) = bitmap then .ok (.writeMultiCoils addr offset (unpack n bitmap))
        else .error .badPadding
      else .error .badLength
    else .error .badByteCount

/-- A function-code-0x10 body after its six header bytes, `n` its count field. The two formats are told apart by
length: after the header F-WMR has `1 + 2n` bytes and F-WMRV `2 + 2n` (R76, R77, R88). -/
def decodeRegisters (addr : Byte) (offset : Word) (n : Nat) (rest : Bytes) : Except DecodeError Req :=
  if rest.length = 1 + 2 * n then
    match rest with
    | bc :: values =>
      if bc.toNat = 2 * n then .ok (.writeMultiRegisters addr offset (wordsOf values)) else .error .badByteCount
    | [] => .error .tooShort
  else if rest.length = 2 + 2 * n then
    match rest with
    | h :: l :: values =>
      if (ofBe16 h l).toNat = 2 * n then .ok (.writeMultiRegistersVendor addr offset (wordsOf values))
      else .error .badByteCount
    | _ => .error .tooShort
  else .error .badLength

/-- A body of exactly six bytes, or an error of length. -/
def decodeSix (rest : Bytes) (req : Except DecodeError Req) : Except DecodeError Req :=
  if rest = [] then req else .error .badLength

/-- A request body, the frame less its checksum (R73 to R77). -/
def decodeBody : Bytes → Except DecodeError Req
  | addr :: fc :: oh :: ol :: fh :: fl :: rest =>
    let offset := ofBe16 oh ol
    let field := ofBe16 fh fl
    if fc = 0x01#8 then decodeSix rest (.ok (.readCoils addr offset field))
    else if fc = 0x02#8 then decodeSix rest (.ok (.readInputs addr offset field))
    else if fc = 0x03#8 then decodeSix rest (.ok (.readHoldingRegisters addr offset field))
    else if fc = 0x04#8 then decodeSix rest (.ok (.readInputRegisters addr offset field))
    else if fc = 0x05#8 then decodeSix rest
      (if field = coilValue true then .ok (.writeSingleCoil addr offset true)
       else if field = coilValue false then .ok (.writeSingleCoil addr offset false)
       else .error .badCoilValue)
    else if fc = 0x06#8 then decodeSix rest (.ok (.writeSingleRegister addr offset field))
    else if fc = 0x0F#8 then decodeCoils addr offset field.toNat rest
    else if fc = 0x10#8 then decodeRegisters addr offset field.toNat rest
    else .error .unknownFunctionCode
  | _ => .error .tooShort

/-- A request frame read off the wire in order `ord` (R72, R88). -/
def decodeRequest (ord : ChecksumOrder) (f : Bytes) : Except DecodeError Instr :=
  if f.length < 2 then .error .tooShort
  else if check f ord then
    match decodeBody (f.take (f.length - 2)) with
    | .ok req => .ok (instrOf ⟨req, selectorOf ord⟩)
    | .error e => .error e
  else .error .badChecksum

/-- The read-reply row of a read function code (R78, R81). -/
def readReplyInstr (fc addr bc : Byte) (data : Bytes) (crcA crcB : Byte) : Option Instr :=
  if fc = 0x01#8 then some (.replyNormal01 addr bc data crcA crcB)
  else if fc = 0x02#8 then some (.replyNormal02 addr bc data crcA crcB)
  else if fc = 0x03#8 then some (.replyNormal03 addr bc data crcA crcB)
  else if fc = 0x04#8 then some (.replyNormal04 addr bc data crcA crcB)
  else none

/-- The write-reply row of a write function code (R79, R81). -/
def writeReplyInstr (fc addr : Byte) (echo1 echo2 : Word) (crcA crcB : Byte) : Option Instr :=
  if fc = 0x05#8 then some (.replyNormal05 addr echo1 echo2 crcA crcB)
  else if fc = 0x06#8 then some (.replyNormal06 addr echo1 echo2 crcA crcB)
  else if fc = 0x0F#8 then some (.replyNormal0F addr echo1 echo2 crcA crcB)
  else if fc = 0x10#8 then some (.replyNormal10 addr echo1 echo2 crcA crcB)
  else none

/-- The exception-reply row of a requested function code (R80, R81). -/
def exceptionInstr (fc addr code crcA crcB : Byte) : Option Instr :=
  if fc = 0x01#8 then some (.replyException81 addr code crcA crcB)
  else if fc = 0x02#8 then some (.replyException82 addr code crcA crcB)
  else if fc = 0x03#8 then some (.replyException83 addr code crcA crcB)
  else if fc = 0x04#8 then some (.replyException84 addr code crcA crcB)
  else if fc = 0x05#8 then some (.replyException85 addr code crcA crcB)
  else if fc = 0x06#8 then some (.replyException86 addr code crcA crcB)
  else if fc = 0x0F#8 then some (.replyException8F addr code crcA crcB)
  else if fc = 0x10#8 then some (.replyException90 addr code crcA crcB)
  else none

/-- A row that the opcode map has, or an error by name. -/
def known : Option Instr → Except DecodeError Instr
  | some i => .ok i
  | none => .error .unknownFunctionCode

/-- A normal reply's bytes after its header `[ADDR, FC]` (R78, R79). -/
def decodeNormalReply (fc addr : Byte) (rest : Bytes) : Except DecodeError Instr :=
  if isRead fc then
    match rest with
    | bc :: tail =>
      if tail.length < 2 then .error .tooShort
      else if maxReplyData + 2 < tail.length then .error .tooLong
      else known (readReplyInstr fc addr bc (tail.take (tail.length - 2)) (tail.getD (tail.length - 2) 0#8)
        (tail.getD (tail.length - 1) 0#8))
    | [] => .error .tooShort
  else
    match rest with
    | [a, b, c, d, crcA, crcB] => known (writeReplyInstr fc addr (ofBe16 a b) (ofBe16 c d) crcA crcB)
    | _ => .error .badLength

/-- A complete reply frame read against the requested function code `fc` (R84). The checksum bytes are operands: the
check is the instruction's (R210, R211). -/
def decodeReply (fc : Byte) (f : Bytes) : Except DecodeError Instr :=
  match f with
  | addr :: b1 :: rest =>
    if b1 = (fc ||| 0x80#8) then
      match rest with
      | [code, crcA, crcB] => known (exceptionInstr fc addr code crcA crcB)
      | _ => .error .badLength
    else if b1 = fc then decodeNormalReply fc addr rest
    else .error .foreignFunctionCode
  | _ => .error .tooShort

/-- The decoder: total on any bytes, rejecting by name. -/
def decode : FrameContext → Bytes → Except DecodeError Instr
  | .request ord, f => decodeRequest ord f
  | .reply fc, f => decodeReply fc f

/-- The frame of an instruction (R73 to R80). A request whose selector is invalid has no frame (R201). -/
def encode : Instr → Option Bytes
  | .readCoils addr offset count sel => (selectedOrder sel).map (serialize (.readCoils addr offset count))
  | .readInputs addr offset count sel => (selectedOrder sel).map (serialize (.readInputs addr offset count))
  | .readHoldingRegisters addr offset count sel => (selectedOrder sel).map (serialize (.readHoldingRegisters addr offset count))
  | .readInputRegisters addr offset count sel => (selectedOrder sel).map (serialize (.readInputRegisters addr offset count))
  | .writeSingleCoil addr offset on sel => (selectedOrder sel).map (serialize (.writeSingleCoil addr offset on))
  | .writeSingleRegister addr offset value sel => (selectedOrder sel).map (serialize (.writeSingleRegister addr offset value))
  | .writeMultiCoils addr offset coils sel => (selectedOrder sel).map (serialize (.writeMultiCoils addr offset coils))
  | .writeMultiRegisters addr offset values sel => (selectedOrder sel).map (serialize (.writeMultiRegisters addr offset values))
  | .writeMultiRegistersVendor addr offset values sel =>
    (selectedOrder sel).map (serialize (.writeMultiRegistersVendor addr offset values))
  | .replyNormal01 addr bc data crcA crcB => some (readReplyFrame 0x01#8 addr bc data crcA crcB)
  | .replyNormal02 addr bc data crcA crcB => some (readReplyFrame 0x02#8 addr bc data crcA crcB)
  | .replyNormal03 addr bc data crcA crcB => some (readReplyFrame 0x03#8 addr bc data crcA crcB)
  | .replyNormal04 addr bc data crcA crcB => some (readReplyFrame 0x04#8 addr bc data crcA crcB)
  | .replyNormal05 addr echo1 echo2 crcA crcB => some (writeReplyFrame 0x05#8 addr echo1 echo2 crcA crcB)
  | .replyNormal06 addr echo1 echo2 crcA crcB => some (writeReplyFrame 0x06#8 addr echo1 echo2 crcA crcB)
  | .replyNormal0F addr echo1 echo2 crcA crcB => some (writeReplyFrame 0x0F#8 addr echo1 echo2 crcA crcB)
  | .replyNormal10 addr echo1 echo2 crcA crcB => some (writeReplyFrame 0x10#8 addr echo1 echo2 crcA crcB)
  | .replyException81 addr code crcA crcB => some (exceptionFrame 0x01#8 addr code crcA crcB)
  | .replyException82 addr code crcA crcB => some (exceptionFrame 0x02#8 addr code crcA crcB)
  | .replyException83 addr code crcA crcB => some (exceptionFrame 0x03#8 addr code crcA crcB)
  | .replyException84 addr code crcA crcB => some (exceptionFrame 0x04#8 addr code crcA crcB)
  | .replyException85 addr code crcA crcB => some (exceptionFrame 0x05#8 addr code crcA crcB)
  | .replyException86 addr code crcA crcB => some (exceptionFrame 0x06#8 addr code crcA crcB)
  | .replyException8F addr code crcA crcB => some (exceptionFrame 0x0F#8 addr code crcA crcB)
  | .replyException90 addr code crcA crcB => some (exceptionFrame 0x10#8 addr code crcA crcB)

/-- The context an instruction's frame is read in: the order its selector names, or the function code it answers. -/
def contextOf : Instr → Option FrameContext
  | .readCoils _ _ _ sel => (selectedOrder sel).map .request
  | .readInputs _ _ _ sel => (selectedOrder sel).map .request
  | .readHoldingRegisters _ _ _ sel => (selectedOrder sel).map .request
  | .readInputRegisters _ _ _ sel => (selectedOrder sel).map .request
  | .writeSingleCoil _ _ _ sel => (selectedOrder sel).map .request
  | .writeSingleRegister _ _ _ sel => (selectedOrder sel).map .request
  | .writeMultiCoils _ _ _ sel => (selectedOrder sel).map .request
  | .writeMultiRegisters _ _ _ sel => (selectedOrder sel).map .request
  | .writeMultiRegistersVendor _ _ _ sel => (selectedOrder sel).map .request
  | .replyNormal01 _ _ _ _ _ => some (.reply 0x01#8)
  | .replyNormal02 _ _ _ _ _ => some (.reply 0x02#8)
  | .replyNormal03 _ _ _ _ _ => some (.reply 0x03#8)
  | .replyNormal04 _ _ _ _ _ => some (.reply 0x04#8)
  | .replyNormal05 _ _ _ _ _ => some (.reply 0x05#8)
  | .replyNormal06 _ _ _ _ _ => some (.reply 0x06#8)
  | .replyNormal0F _ _ _ _ _ => some (.reply 0x0F#8)
  | .replyNormal10 _ _ _ _ _ => some (.reply 0x10#8)
  | .replyException81 _ _ _ _ => some (.reply 0x01#8)
  | .replyException82 _ _ _ _ => some (.reply 0x02#8)
  | .replyException83 _ _ _ _ => some (.reply 0x03#8)
  | .replyException84 _ _ _ _ => some (.reply 0x04#8)
  | .replyException85 _ _ _ _ => some (.reply 0x05#8)
  | .replyException86 _ _ _ _ => some (.reply 0x06#8)
  | .replyException8F _ _ _ _ => some (.reply 0x0F#8)
  | .replyException90 _ _ _ _ => some (.reply 0x10#8)

/-- Byte `k` of the frame whose bits are `w`, numbered as spec/opcode_table.json numbers them: 16-bit words, bit 0 the
least significant bit of the first word `byte0 << 8 | byte1`, each word's high byte first. Log 10. -/
def tableByte (nbits w k : Nat) : Byte :=
  if k % 2 = 0 then BitVec.ofNat 8 ((w % 2 ^ nbits) >>> (8 * k + 8))
  else BitVec.ofNat 8 ((w % 2 ^ nbits) >>> (8 * k - 8))

/-- How many bytes of `b` a request body takes (R73 to R77), by its function code and its own length fields. -/
def tableBodyLength (b : Nat → Byte) : Nat :=
  if b 1 = 0x0F#8 then 7 + (b 6).toNat
  else if b 1 = 0x10#8 then
    if (b 6).toNat = 2 * (ofBe16 (b 4) (b 5)).toNat then 7 + (b 6).toNat
    else 8 + 2 * (ofBe16 (b 4) (b 5)).toNat
  else 6

/-- The instruction the decoder reads from the table word `w`. With bit 7 of byte 1 set it is an exception reply to the
function code below that bit (R80); otherwise a request body (its checksum is computed, not an operand), selector
0x00. Log 10. -/
def decodeTableWord (nbits w : Nat) : Option Instr :=
  let b := tableByte nbits w
  if (b 1).getLsbD 7 then
    match decodeReply (b 1 &&& 0x7F#8) ((List.range 5).map b) with
    | .ok i => some i
    | .error _ => none
  else
    match decodeBody ((List.range (tableBodyLength b)).map b) with
    | .ok req => some (instrOf ⟨req, 0x00#8⟩)
    | .error _ => none

end Sys2Proof
end

