-- ==== Sys2Proof/Machine/Fetch.lean ====
section
/-! DEFINITION. What the block does in its turn (spec/10_state.md R22): in Idle it takes the command at the port; in
AwaitingResponse it reads from the transport (spec/44_master_exchange.md R206, R207), and a buffer that reaches its
target is decoded into the reply instruction it is. -/

namespace Sys2Proof.Machine

/-- What a turn of the block comes to: an instruction to execute, or the state after a turn that completes none. -/
inductive Fetched where
  | run (i : Instr) (s : State)
  | settled (s : State)
  deriving DecidableEq, Repr

/-- `rx_append(bs)` (R207): the target is re-evaluated after the append. A complete frame that is no row of the opcode
table (a foreign byte 1, R84) is validated and decoded all the same (R210). -/
def rxAppend (bs : Bytes) (s : State) : Fetched :=
  let buf := s.rxbuf ++ bs
  let s1 := { s with rxbuf := buf }
  if buf.length < target s.ctxFc s.ctxExplen buf then .settled s1
  else
    match decode (.reply s.ctxFc) buf with
    | .ok i => .run i s1
    | .error _ => .settled (completeFrame s1)

/-- The capacity of the next read (R206): exactly the missing bytes. -/
def readCap (s : State) : Nat := target s.ctxFc s.ctxExplen s.rxbuf - s.rxbuf.length

/-- The read step (R206, R208, R209). A transport that has not answered leaves the state as it is (R281). -/
def readStep (s : State) : Fetched :=
  match rxRead (readCap s) s.rx with
  | none => .settled s
  | some (outcome, rx) =>
    let s1 := record (.rxRead (readCap s)) { s with rx := rx }
    match outcome with
    | .data bs => rxAppend bs s1
    | .zero => .settled (raise .timeoutError 0x00#8 s1)
    | .fail => .settled (raise .transportError 0x00#8 s1)

/-- The block's turn (R22, R37). With no command waiting an idle block does nothing (R262). -/
def fetch (s : State) : Fetched :=
  match s.phase with
  | .idle =>
    match s.port with
    | [] => .settled s
    | c :: cs => .run (instrOf c) { s with port := cs }
  | .awaitingResponse => readStep s

/-- Bytes of a placed reply that are already accumulated: all that come before its last read. -/
def placedEarlier (f : Bytes) : Nat := if f.length ≤ Config.minResLen then 0 else Config.minResLen

/-- `s` with a reply frame to function code `fc` about to be completed by the block's next read. -/
def placeReply (fc : Byte) (f : Bytes) (s : State) : State :=
  { s with
    phase := .awaitingResponse
    ctxFc := fc
    ctxExplen := f.length
    rxbuf := f.take (placedEarlier f)
    rx := .data (f.drop (placedEarlier f)) :: s.rx
    turns := .block :: s.turns }

/-- `s` with an instruction where the next step finds it: a request at the head of the command port of an idle block,
a reply in the transport of a block that awaits it. Log 9. -/
def placeInstr (i : Instr) (s : State) : State :=
  match commandOf i, contextOf i, encode i with
  | some c, _, _ => { s with phase := .idle, port := c :: s.port, turns := .block :: s.turns }
  | none, some (.reply fc), some f => placeReply fc f s
  | none, _, _ => s

end Sys2Proof.Machine
end

