-- ==== Sys2Proof/Machine/Ports.lean ====
section
/-! DEFINITION. The host's moves besides offering a command: RESET (spec/70_reset_and_hazards.md R270, R271), open and
close of the transport (spec/10_state.md R43, R276), queries (R38, R181), reads of the result ports (R39). -/

namespace Sys2Proof.Machine

/-- RESET (R270): every field of the block, "in one step, whatever the phase", to its value in `State.reset` (log 1 for
the unspecified ones). What is outside the block stays: bytes in the transport (R271, R274), waiting commands, the
record of the run. Log 13. -/
def resetBlock (s : State) : State :=
  { State.reset with port := s.port, tx := s.tx, rx := s.rx, turns := s.turns, draws := s.draws, trace := s.trace }

/-- A query's answer (R38): a function of its arguments alone, or the refusal of R181 and R148 (log 16). -/
def answerQuery : Query → Except Refusal Answer
  | .crc16 bs => .ok (.word (crc16 bs))
  | .serialize req ord => if admitted req then .ok (.bytes (serialize req ord)) else .error .listTooLong
  | .functionCode req => if admitted req then .ok (.byte (functionCode req)) else .error .listTooLong
  | .expectedResponseLength req =>
    if admitted req then .ok (.length (expectedResponseLength req)) else .error .listTooLong
  | .parse raw fc =>
    if 3 ≤ raw.length ∧ fc ∈ functionCodes then .ok (.result (parse raw fc)) else .error .parseOperands
  | .decodeException code => .ok (.result (decodeException code))

/-- A host read of a result port (R23, R39): `DONE` always, the result registers while `DONE = 1`, and
`PAYLOAD[0..RES_COUNT)` while `DONE = 1` and `RES_STATUS = OK`. Log 14. -/
def readPort (p : ResultPort) (s : State) : Except Fault Answer :=
  match p with
  | .done => .ok (.bit s.done)
  | .status => if s.done then .ok (.code s.resStatus) else .error .resultNotReady
  | .info => if s.done then .ok (.byte s.resInfo) else .error .resultNotReady
  | .count => if s.done then .ok (.length s.resCount) else .error .resultNotReady
  | .payload index =>
    if s.done ∧ s.resStatus = statusCode .ok ∧ index < s.resCount then .ok (.byte (s.payload.toList.getD index 0#8))
    else .error .payloadNotReadable

/-- The kind of slave exception the last exchange ended with: "the kind is recovered from `RES_INFO` by this table"
(R172). None where it did not end with SLAVE_EXCEPTION. -/
def resultKind (s : State) : Option ExceptionKind :=
  if s.resStatus = statusCode .slaveException then exceptionKind s.resInfo else none

/-- One host move. A query or a read changes nothing but the record of answers. -/
def hostMove (m : HostMove) (s : State) : Host.Outcome State Fault Refusal :=
  match m with
  | .reset => .next (resetBlock s)
  | .openTransport => .next s
  | .closeTransport => if busy s then .refused .closeWhileBusy else .next s
  | .query q =>
    match answerQuery q with
    | .ok a => .next (record (.answered a) s)
    | .error r => .refused r
  | .read p =>
    match readPort p s with
    | .ok a => .next (record (.answered a) s)
    | .error f => .fault f

end Sys2Proof.Machine
end

