-- ==== Sys2Proof/Machine/Step.lean ====
section
/-! DEFINITION. One step: the turn of the block, or a move of the host (spec/10_state.md R20, spec/20_memory.md R63). -/

namespace Sys2Proof.Machine

/-- The outcome of a turn: the instruction it comes to is executed. -/
def outcomeOf : Fetched → Host.Outcome State Fault Refusal
  | .run i t => exec i t
  | .settled t => .next t

/-- The block's turn. -/
def blockStep (s : State) : Host.Outcome State Fault Refusal := outcomeOf (fetch s)

/-- One step. -/
def step (s : State) : Host.Outcome State Fault Refusal :=
  match s.turns with
  | [] => blockStep s
  | .block :: ts => blockStep { s with turns := ts }
  | .host m :: ts => hostMove m { s with turns := ts }

/-- `s` with the instruction of the table word `w` where `step` finds its next instruction (log 9). -/
def State.withFetchWord (s : State) (nbits w : Nat) : State :=
  match decodeTableWord nbits w with
  | some i => placeInstr i s
  | none => s

end Sys2Proof.Machine
end

