-- ==== Sys2Proof/Safety.lean ====
section
/-! DEFINITION. What a sound state is (spec/10_state.md R45 with the ranges of R21): the terms claims use. -/

namespace Sys2Proof.Machine

/-- The exchange in progress is one the block can be in (R45(b)). -/
structure State.ExchangeInv (s : State) : Prop where
  fc : s.ctxFc ∈ [0x01#8, 0x02#8, 0x03#8, 0x04#8, 0x05#8, 0x06#8, 0x0F#8, 0x10#8]
  explenLow : 5 ≤ s.ctxExplen
  explenHigh : s.ctxExplen ≤ 131075
  below : s.rxbuf.length < target s.ctxFc s.ctxExplen s.rxbuf

/-- The invariants of R45, with the ranges R21 and R51 give `RES_COUNT` and `RXBUF`. -/
structure State.Inv (s : State) : Prop where
  exchange : s.phase = .awaitingResponse → s.ExchangeInv
  doneIdle : s.done = true → s.phase = .idle
  status : s.resStatus.toNat ≤ 8
  count : s.resCount ≤ 255
  buffer : s.rxbuf.length ≤ 131075

end Sys2Proof.Machine
end

