-- ==== Sys2Proof/Certificates/Slice0/Obligations.lean ====
section
/-! DEFINITION. The statements for the provers. Each docstring names the rules it formalises. -/

open Sys2Proof Sys2Proof.Machine

/-! ### Terms the statements share -/

/-- The block moves in the next step: no host move stands first among the turns (R20). -/
def Sys2Proof.Claims.BlockTurn (s : State) : Prop := ∀ m, s.turns.head? ≠ some (.host m)

/-- The outcome the next `TxWrite` draws (R41). -/
def Sys2Proof.Claims.WriteDraws (s : State) (o : TxOutcome) : Prop :=
  s.tx.headD (Config.freeTxOutcome s.draws) = o

/-- The state after a frame with this body was written in order `ord` and the exchange entered AwaitingResponse (R204):
every field not named is unchanged. -/
def Sys2Proof.Claims.started (body : Bytes) (ord : ChecksumOrder) (fc : Byte) (explen : Nat) (s : State) : State :=
  { s with
    tx := s.tx.tail
    draws := if s.tx = [] then s.draws + 1 else s.draws
    trace := s.trace ++ [.txWrite (body ++ place (crc16 body) ord)]
    done := false
    ctxOrder := ord
    ctxFc := fc
    ctxExplen := explen
    rxbuf := []
    phase := .awaitingResponse }

/-- The state after an exchange ended with this status code, detail byte and payload count (R215), `PAYLOAD` unchanged:
every field not named is unchanged. -/
def Sys2Proof.Claims.ended (status : BitVec 4) (info : Byte) (count : Nat) (s : State) : State :=
  { s with resStatus := status, resInfo := info, resCount := count, phase := .idle, done := true }

/-- The state after a read returned: its capacity recorded, its answer taken from the transport, the turn used. -/
def Sys2Proof.Claims.afterRead (cap : Nat) (rx : List RxOutcome) (s : State) : State :=
  { s with turns := s.turns.tail, rx := rx, trace := s.trace ++ [.rxRead cap] }

open Sys2Proof.Claims

/-! ### The Checksum Engine -/

/-- Golden values of `crc16` (95_test_vectors.md S1, V1 to V5, V8). A sanity statement. -/
def Obligations.CrcGoldenVectors : Prop :=
  crc16 [0x01, 0x03, 0x00, 0x00, 0x00, 0x01] = 0x0A84#16 ∧
  crc16 [] = 0xFFFF#16 ∧
  crc16 [0x01, 0x03, 0x00, 0x00, 0x00, 0x02] = 0x0BC4#16 ∧
  crc16 [0x11, 0x03, 0x00, 0x6B, 0x00, 0x03] = 0x8776#16 ∧
  crcTable 0x01 = 0xC0C1#16 ∧ crcTable 0x7F = 0xE041#16 ∧ crcTable 0x80 = 0xA001#16 ∧ crcTable 0xFF = 0x4040#16

/-- R102: the fold from 0xFFFF, one table access per byte. -/
def Obligations.CrcFoldsOneTableEntryPerByte : Prop :=
  crc16 [] = 0xFFFF#16 ∧
  ∀ (bs : Bytes) (b : Byte), crc16 (bs ++ [b]) = (crc16 bs >>> 8) ^^^ crcTable ((crc16 bs).setWidth 8 ^^^ b)

/-- R104: the table form equals the bit-serial form. -/
def Obligations.CrcTableFormEqualsBitSerialForm : Prop :=
  ∀ bs : Bytes, crc16 bs =
    bs.foldl (fun c x =>
      (fun v : Word => if v.getLsbD 0 then (v >>> 1) ^^^ 0xA001#16 else v >>> 1)^[8] (c ^^^ x.setWidth 16)) 0xFFFF#16

/-- R105, R106, R108: the two checksum bytes in wire order, reading them, and what `check` compares. -/
def Obligations.ChecksumPlacement : Prop :=
  (∀ c : Word, (place c .lowFirst).map BitVec.toNat = [c.toNat % 256, c.toNat / 256]) ∧
  (∀ c : Word, (place c .highFirst).map BitVec.toNat = [c.toNat / 256, c.toNat % 256]) ∧
  (∀ b0 b1 : Byte, (unplace b0 b1 .lowFirst).toNat = b1.toNat * 256 + b0.toNat) ∧
  (∀ b0 b1 : Byte, (unplace b0 b1 .highFirst).toNat = b0.toNat * 256 + b1.toNat) ∧
  (∀ (body : Bytes) (b0 b1 : Byte) (ord : ChecksumOrder),
    check (body ++ [b0, b1]) ord = true ↔ unplace b0 b1 ord = crc16 body)

/-- The inferences of R106 and R108: reading inverts placing, and every sealed body passes the check in its own order. -/
def Obligations.SealedFramesPassTheCheck : Prop :=
  (∀ (c : Word) (ord : ChecksumOrder), ∃ b0 b1, place c ord = [b0, b1] ∧ unplace b0 b1 ord = c) ∧
  (∀ (body : Bytes) (ord : ChecksumOrder), check (body ++ place (crc16 body) ord) ord = true)

/-- R109: the LowFirst residue is zero, and the HighFirst counterexample. -/
def Obligations.LowFirstResidueIsZero : Prop :=
  (∀ body : Bytes, crc16 (sealFrame body .lowFirst) = 0x0000#16) ∧
  crc16 (sealFrame [0x01, 0x03, 0x00, 0x00, 0x00, 0x02] .highFirst) = 0xA415#16

/-- R110: inverting one bit before the checksum of a frame that passes the check makes it fail, for every length. -/
def Obligations.SingleBitErrorsAreDetected : Prop :=
  ∀ (f : Bytes) (ord : ChecksumOrder) (i j : Nat), i + 2 < f.length → j < 8 → check f ord = true →
    check (f.set i (f.getD i 0#8 ^^^ (1#8 <<< j))) ord = false

/-- R244: a frame sealed in one order passes the check in the other exactly when its two checksum bytes are equal. -/
def Obligations.WrongOrderFailsUnlessBytesAgree : Prop :=
  ∀ (body : Bytes) (ord other : ChecksumOrder), ord ≠ other →
    (check (sealFrame body ord) other = true ↔ (crc16 body).toNat / 256 = (crc16 body).toNat % 256)

/-! ### The Frame Codec -/

/-- R140: `ceil8(n)` bytes, coil `i` in bit `i mod 8` of byte `i div 8`, every other bit 0. -/
def Obligations.CoilsArePackedLsbFirst : Prop :=
  ∀ coils : List Bool, (pack coils).length = (coils.length + 7) / 8 ∧
    ∀ k < (coils.length + 7) / 8, ∀ j < 8, ((pack coils).getD k 0#8).getLsbD j = coils.getD (8 * k + j) false

/-- R73 to R77: every byte of the nine request formats. -/
def Obligations.RequestFramesAreBitExact : Prop :=
  ∀ (ord : ChecksumOrder) (addr : Byte) (offset : Word),
    (∀ fc mk, (fc, mk) ∈ [(0x01#8, Req.readCoils), (0x02#8, Req.readInputs), (0x03#8, Req.readHoldingRegisters),
        (0x04#8, Req.readInputRegisters), (0x06#8, Req.writeSingleRegister)] →
      ∀ field : Word, ∃ oh ol fh fl : Byte,
        offset.toNat = 256 * oh.toNat + ol.toNat ∧ field.toNat = 256 * fh.toNat + fl.toNat ∧
        serialize (mk addr offset field) ord =
          [addr, fc, oh, ol, fh, fl] ++ place (crc16 [addr, fc, oh, ol, fh, fl]) ord) ∧
    (∀ on : Bool, ∃ oh ol vh : Byte,
      offset.toNat = 256 * oh.toNat + ol.toNat ∧ vh = (if on then 0xFF#8 else 0x00#8) ∧
      serialize (.writeSingleCoil addr offset on) ord =
        [addr, 0x05#8, oh, ol, vh, 0x00#8] ++ place (crc16 [addr, 0x05#8, oh, ol, vh, 0x00#8]) ord) ∧
    (∀ coils : List Bool, coils.length ≤ 2040 → ∃ oh ol nh nl bc : Byte,
      offset.toNat = 256 * oh.toNat + ol.toNat ∧ coils.length = 256 * nh.toNat + nl.toNat ∧
      bc.toNat = (coils.length + 7) / 8 ∧
      serialize (.writeMultiCoils addr offset coils) ord =
        [addr, 0x0F#8, oh, ol, nh, nl, bc] ++ pack coils ++
          place (crc16 ([addr, 0x0F#8, oh, ol, nh, nl, bc] ++ pack coils)) ord) ∧
    (∀ values : List Word, values.length ≤ 127 → ∃ oh ol nh nl bc : Byte,
      offset.toNat = 256 * oh.toNat + ol.toNat ∧ values.length = 256 * nh.toNat + nl.toNat ∧
      bc.toNat = 2 * values.length ∧
      serialize (.writeMultiRegisters addr offset values) ord =
        [addr, 0x10#8, oh, ol, nh, nl, bc] ++ valueBytes values ++
          place (crc16 ([addr, 0x10#8, oh, ol, nh, nl, bc] ++ valueBytes values)) ord) ∧
    (∀ values : List Word, values.length ≤ 32767 → ∃ oh ol nh nl bh bl : Byte,
      offset.toNat = 256 * oh.toNat + ol.toNat ∧ values.length = 256 * nh.toNat + nl.toNat ∧
      2 * values.length = 256 * bh.toNat + bl.toNat ∧
      serialize (.writeMultiRegistersVendor addr offset values) ord =
        [addr, 0x10#8, oh, ol, nh, nl, bh, bl] ++ valueBytes values ++
          place (crc16 ([addr, 0x10#8, oh, ol, nh, nl, bh, bl] ++ valueBytes values)) ord)

/-- R57: payload values are big-endian, in list order, two bytes each. -/
def Obligations.RegisterValuesAreBigEndian : Prop :=
  ∀ values : List Word, (valueBytes values).length = 2 * values.length ∧ ∀ k < values.length,
    256 * ((valueBytes values).getD (2 * k) 0#8).toNat + ((valueBytes values).getD (2 * k + 1) 0#8).toNat =
      (values.getD k 0#16).toNat

/-- R86: the request frame lengths, by kind. -/
def Obligations.RequestFrameLengths : Prop :=
  ∀ (ord : ChecksumOrder) (addr : Byte) (offset field : Word) (on : Bool) (coils : List Bool) (values : List Word),
    (serialize (.readCoils addr offset field) ord).length = 8 ∧
    (serialize (.readInputs addr offset field) ord).length = 8 ∧
    (serialize (.readHoldingRegisters addr offset field) ord).length = 8 ∧
    (serialize (.readInputRegisters addr offset field) ord).length = 8 ∧
    (serialize (.writeSingleCoil addr offset on) ord).length = 8 ∧
    (serialize (.writeSingleRegister addr offset field) ord).length = 8 ∧
    (serialize (.writeMultiCoils addr offset coils) ord).length = 9 + (coils.length + 7) / 8 ∧
    (serialize (.writeMultiRegisters addr offset values) ord).length = 9 + 2 * values.length ∧
    (serialize (.writeMultiRegistersVendor addr offset values) ord).length = 10 + 2 * values.length

/-- R129: the function code of every kind, and that it is byte 1 of the frame. -/
def Obligations.FunctionCodeIsByteOne : Prop :=
  (∀ (addr : Byte) (offset field : Word) (on : Bool) (coils : List Bool) (values : List Word),
    functionCode (.readCoils addr offset field) = 0x01#8 ∧ functionCode (.readInputs addr offset field) = 0x02#8 ∧
    functionCode (.readHoldingRegisters addr offset field) = 0x03#8 ∧
    functionCode (.readInputRegisters addr offset field) = 0x04#8 ∧
    functionCode (.writeSingleCoil addr offset on) = 0x05#8 ∧
    functionCode (.writeSingleRegister addr offset field) = 0x06#8 ∧
    functionCode (.writeMultiCoils addr offset coils) = 0x0F#8 ∧
    functionCode (.writeMultiRegisters addr offset values) = 0x10#8 ∧
    functionCode (.writeMultiRegistersVendor addr offset values) = 0x10#8) ∧
  ∀ (req : Req) (ord : ChecksumOrder), (serialize req ord)[1]? = some (functionCode req)

/-- R122, R123, R142: the expected reply lengths, in unbounded naturals. -/
def Obligations.ExpectedReplyLengths : Prop :=
  ∀ (addr : Byte) (offset count : Word) (on : Bool) (coils : List Bool) (values : List Word),
    (∀ mk ∈ [Req.readCoils, Req.readInputs],
      expectedResponseLength (mk addr offset count) = (count.toNat + 7) / 8 + 5) ∧
    (∀ mk ∈ [Req.readHoldingRegisters, Req.readInputRegisters],
      expectedResponseLength (mk addr offset count) = 2 * count.toNat + 5) ∧
    (∀ req ∈ [Req.writeSingleCoil addr offset on, .writeSingleRegister addr offset count,
        .writeMultiCoils addr offset coils, .writeMultiRegisters addr offset values,
        .writeMultiRegistersVendor addr offset values],
      expectedResponseLength req = 8)

/-! ### Decoding and encoding -/

/-- Decoding the encoding of a well-formed instruction, in the context its frame is read in, gives it back: all 25
rows, every operand at every value. The decoder of request frames is the model's own, log 15. -/
def Obligations.DecodeInvertsEncode : Prop :=
  ∀ (i : Instr) (f : Bytes) (c : FrameContext), i.wellFormed = true → encode i = some f → contextOf i = some c →
    decode c f = .ok i

/-- A frame that decodes is the encoding of a well-formed instruction of its context: no two frames share a meaning. For
a request frame (wrong checksum, byte count, coil value or padding bit rejected) this is the model's choice, log 15: "the
block itself never decodes requests" (R88). -/
def Obligations.EncodeInvertsDecode : Prop :=
  ∀ (c : FrameContext) (f : Bytes) (i : Instr), decode c f = .ok i →
    i.wellFormed = true ∧ encode i = some f ∧ contextOf i = some c

/-- Frames written out from the spec's formats and vectors decode to the instructions they stand for
(95_test_vectors.md V10, V16, V25, V32, V37, V40, V65, V85, V71). A sanity statement. -/
def Obligations.SpecFramesDecode : Prop :=
  decode (.request .lowFirst) [0x01, 0x01, 0x00, 0x13, 0x00, 0x25, 0x0C, 0x14] =
    .ok (.readCoils 0x01 0x0013 37 0x00) ∧
  decode (.request .highFirst) [0x11, 0x04, 0x00, 0x08, 0x00, 0x01, 0x98, 0xB2] =
    .ok (.readInputRegisters 0x11 0x0008 1 0x01) ∧
  decode (.request .lowFirst) [0x11, 0x05, 0x00, 0xAC, 0xFF, 0x00, 0x4E, 0x8B] =
    .ok (.writeSingleCoil 0x11 0x00AC true 0x00) ∧
  decode (.request .lowFirst) [0x11, 0x0F, 0x00, 0x13, 0x00, 0x0A, 0x02, 0xCD, 0x01, 0xBF, 0x0B] =
    .ok (.writeMultiCoils 0x11 0x0013 [true, false, true, true, false, false, true, true, true, false] 0x00) ∧
  decode (.request .lowFirst) [0x11, 0x10, 0x00, 0x01, 0x00, 0x02, 0x04, 0x00, 0x0A, 0x01, 0x02, 0xC6, 0xF0] =
    .ok (.writeMultiRegisters 0x11 0x0001 [0x000A, 0x0102] 0x00) ∧
  decode (.request .lowFirst) [0x11, 0x10, 0x00, 0x01, 0x00, 0x02, 0x00, 0x04, 0x00, 0x0A, 0x01, 0x02, 0x73, 0x3D] =
    .ok (.writeMultiRegistersVendor 0x11 0x0001 [0x000A, 0x0102] 0x00) ∧
  decode (.reply 0x03) [0x01, 0x03, 0x04, 0x00, 0x06, 0x00, 0x05, 0xDA, 0x31] =
    .ok (.replyNormal03 0x01 0x04 [0x00, 0x06, 0x00, 0x05] 0xDA 0x31) ∧
  decode (.reply 0x06) [0x11, 0x06, 0x00, 0x01, 0x00, 0x03, 0x9A, 0x9B] =
    .ok (.replyNormal06 0x11 0x0001 0x0003 0x9A 0x9B) ∧
  decode (.reply 0x03) [0x01, 0x83, 0x04, 0xF3, 0x40] = .ok (.replyException83 0x01 0x04 0xF3 0x40)

/-! ### The Response Parser -/

/-- R172: the table of code and kind, closed; the triple of every code, an unmapped one reported as unknown with its
value; and the kind recovered from `RES_INFO` once the result is stored. -/
def Obligations.ExceptionCodeMapping : Prop :=
  (∀ (code : Byte) (kind : ExceptionKind), exceptionKind code = some kind ↔
    (code, kind) ∈ [(0x01#8, .illegalFunction), (0x02#8, .illegalDataAddress), (0x03#8, .illegalDataValue),
      (0x04#8, .slaveDeviceFailure), (0x05#8, .acknowledge), (0x06#8, .slaveDeviceBusy),
      (0x0A#8, .gatewayPathUnavailable), (0x0B#8, .gatewayTargetDeviceFailedToRespond)]) ∧
  (∀ code : Byte, decodeException code =
    if (1 ≤ code.toNat ∧ code.toNat ≤ 6) ∨ code.toNat = 10 ∨ code.toNat = 11 then ⟨.slaveException, code, []⟩
    else ⟨.unknownSlaveException, code, []⟩) ∧
  ∀ (code : Byte) (s : State), resultKind (finish (decodeException code) s) = exceptionKind code

/-- R171, R173 to R178: the decision rule on byte 1, for a raw frame `a b1 c rest`. -/
def Obligations.ParseDecisionRule : Prop :=
  ∀ (a b1 c : Byte) (rest : Bytes) (fc : Byte), fc ∈ [0x01#8, 0x02#8, 0x03#8, 0x04#8, 0x05#8, 0x06#8, 0x0F#8, 0x10#8] →
    (b1 = fc → fc ∈ [0x01#8, 0x02#8, 0x03#8, 0x04#8] → c.toNat ≤ rest.length →
      parse (a :: b1 :: c :: rest) fc = ⟨.ok, 0x00#8, rest.take c.toNat⟩) ∧
    (b1 = fc → fc ∈ [0x01#8, 0x02#8, 0x03#8, 0x04#8] → rest.length < c.toNat →
      parse (a :: b1 :: c :: rest) fc = ⟨.lengthError, c, []⟩) ∧
    (b1 = fc → fc ∈ [0x05#8, 0x06#8, 0x0F#8, 0x10#8] → parse (a :: b1 :: c :: rest) fc = ⟨.ok, 0x00#8, []⟩) ∧
    (b1 = (fc ||| 0x80#8) → parse (a :: b1 :: c :: rest) fc = decodeException c) ∧
    (b1 ≠ fc → b1 ≠ (fc ||| 0x80#8) → parse (a :: b1 :: c :: rest) fc = ⟨.protocolError, b1, []⟩)

/-- R179: two complete frames that differ only in the address byte, both with a matching checksum, end alike. -/
def Obligations.AddressByteIsNotExamined : Prop :=
  ∀ (s : State) (a a' : Byte) (rest : Bytes) (x y x' y' : Byte), 2 ≤ rest.length →
    check (a :: rest ++ [x, y]) s.ctxOrder = true → check (a' :: rest ++ [x', y']) s.ctxOrder = true →
      completeFrame { s with rxbuf := a' :: rest ++ [x', y'] } =
        { completeFrame { s with rxbuf := a :: rest ++ [x, y] } with rxbuf := a' :: rest ++ [x', y'] }

/-! ### The requests -/

/-- R200, R204 with R126 to R128, R130: a read request offered to an idle block with a valid selector, whose write
succeeds, sends its frame and enters AwaitingResponse; nothing else changes. -/
def Obligations.ReadRequestsStartAnExchange : Prop :=
  ∀ (addr : Byte) (offset count : Word) (sel : Byte) (ord : ChecksumOrder) (s : State),
    s.phase = .idle → selectedOrder sel = some ord → WriteDraws s .ok →
      exec (.readCoils addr offset count sel) s =
        .next (started ([addr, 0x01#8] ++ be16 offset ++ be16 count) ord 0x01#8 ((count.toNat + 7) / 8 + 5) s) ∧
      exec (.readInputs addr offset count sel) s =
        .next (started ([addr, 0x02#8] ++ be16 offset ++ be16 count) ord 0x02#8 ((count.toNat + 7) / 8 + 5) s) ∧
      exec (.readHoldingRegisters addr offset count sel) s =
        .next (started ([addr, 0x03#8] ++ be16 offset ++ be16 count) ord 0x03#8 (2 * count.toNat + 5) s) ∧
      exec (.readInputRegisters addr offset count sel) s =
        .next (started ([addr, 0x04#8] ++ be16 offset ++ be16 count) ord 0x04#8 (2 * count.toNat + 5) s)

/-- R200, R204 with R141, R143, R144: the single writes. -/
def Obligations.SingleWritesStartAnExchange : Prop :=
  ∀ (addr : Byte) (offset value : Word) (on : Bool) (sel : Byte) (ord : ChecksumOrder) (s : State),
    s.phase = .idle → selectedOrder sel = some ord → WriteDraws s .ok →
      exec (.writeSingleCoil addr offset on sel) s =
        .next (started ([addr, 0x05#8] ++ be16 offset ++ be16 (if on then 0xFF00#16 else 0x0000#16)) ord 0x05#8 8 s) ∧
      exec (.writeSingleRegister addr offset value sel) s =
        .next (started ([addr, 0x06#8] ++ be16 offset ++ be16 value) ord 0x06#8 8 s)

/-- R200, R204 with R145 to R147: the multi writes of an admitted list. -/
def Obligations.MultiWritesStartAnExchange : Prop :=
  ∀ (addr : Byte) (offset : Word) (sel : Byte) (ord : ChecksumOrder) (s : State),
    s.phase = .idle → selectedOrder sel = some ord → WriteDraws s .ok →
      (∀ coils : List Bool, coils.length ≤ 2040 → exec (.writeMultiCoils addr offset coils sel) s =
        .next (started ([addr, 0x0F#8] ++ be16 offset ++ be16 (BitVec.ofNat 16 coils.length) ++
          [BitVec.ofNat 8 ((coils.length + 7) / 8)] ++ pack coils) ord 0x0F#8 8 s)) ∧
      (∀ values : List Word, values.length ≤ 127 → exec (.writeMultiRegisters addr offset values sel) s =
        .next (started ([addr, 0x10#8] ++ be16 offset ++ be16 (BitVec.ofNat 16 values.length) ++
          [BitVec.ofNat 8 (2 * values.length)] ++ values.flatMap be16) ord 0x10#8 8 s)) ∧
      (∀ values : List Word, values.length ≤ 32767 → exec (.writeMultiRegistersVendor addr offset values sel) s =
        .next (started ([addr, 0x10#8] ++ be16 offset ++ be16 (BitVec.ofNat 16 values.length) ++
          be16 (BitVec.ofNat 16 (2 * values.length)) ++ values.flatMap be16) ord 0x10#8 8 s))

/-- R36, R201: 0x00 selects LowFirst, 0x01 HighFirst; every other selector ends the command with CONFIGURATION_ERROR
before any I/O, for all nine kinds. -/
def Obligations.InvalidSelectorEndsTheCommand : Prop :=
  selectedOrder 0x00#8 = some .lowFirst ∧ selectedOrder 0x01#8 = some .highFirst ∧
  ∀ (c : Command) (s : State), admitted c.req = true → s.phase = .idle → c.sel ≠ 0x00#8 → c.sel ≠ 0x01#8 →
    exec (instrOf c) s = .next (ended 0x1#4 0x00#8 0 s)

/-- R203: a failed write ends the command with TRANSPORT_ERROR; the frame was offered, no context is recorded. -/
def Obligations.WriteFailureEndsTheCommand : Prop :=
  ∀ (c : Command) (ord : ChecksumOrder) (s : State), admitted c.req = true → s.phase = .idle →
    selectedOrder c.sel = some ord → WriteDraws s .fail →
      exec (instrOf c) s = .next (ended 0x2#4 0x00#8 0
        { s with
          tx := s.tx.tail
          draws := if s.tx = [] then s.draws + 1 else s.draws
          trace := s.trace ++ [.txWrite (serialize c.req ord)] })

/-- R37, R221: a command that meets a busy block is held: it is back at the head of the port and nothing else changes. -/
def Obligations.BusyBlockHoldsTheCommand : Prop :=
  ∀ (c : Command) (s : State), admitted c.req = true → s.phase = .awaitingResponse →
    exec (instrOf c) s = .next { s with port := c :: s.port }

/-- R148: a multi write is refused exactly when its list exceeds its limit, in every phase. -/
def Obligations.OversizeListsAreRefused : Prop :=
  ∀ (addr : Byte) (offset : Word) (coils : List Bool) (values : List Word) (sel : Byte) (s : State),
    (exec (.writeMultiCoils addr offset coils sel) s = .refused .listTooLong ↔ 2040 < coils.length) ∧
    (exec (.writeMultiRegisters addr offset values sel) s = .refused .listTooLong ↔ 127 < values.length) ∧
    (exec (.writeMultiRegistersVendor addr offset values sel) s = .refused .listTooLong ↔ 32767 < values.length)

/-! ### The replies -/

/-- R175 with R210 to R212, R215: a checksum-valid read reply of the expected length whose byte count fits ends the
exchange with OK, `RES_COUNT = bc` and `PAYLOAD[k]` the k-th data byte below `bc`; nothing else changes. -/
def Obligations.ReadRepliesReturnTheirData : Prop :=
  ∀ fc mk, (fc, mk) ∈ [(0x01#8, Instr.replyNormal01), (0x02#8, Instr.replyNormal02), (0x03#8, Instr.replyNormal03),
      (0x04#8, Instr.replyNormal04)] →
    ∀ (addr bc : Byte) (data : Bytes) (crcA crcB : Byte) (s : State),
      s.phase = .awaitingResponse → s.ctxFc = fc → s.ctxExplen = 5 + data.length →
      [crcA, crcB] = place (crc16 ([addr, fc, bc] ++ data)) s.ctxOrder → bc.toNat ≤ data.length →
        ∃ t, exec (mk addr bc data crcA crcB) s = .next t ∧
          t = { ended 0x0#4 0x00#8 bc.toNat s with
            rxbuf := [addr, fc, bc] ++ data ++ [crcA, crcB], payload := t.payload } ∧
          ∀ (k : Nat) (h : k < 255), t.payload[k] = if k < bc.toNat then data.getD k 0#8 else s.payload[k]

/-- R176, R248: a checksum-valid read reply whose byte count runs past the frame ends with LENGTH_ERROR. -/
def Obligations.ReadRepliesWithTooLargeByteCount : Prop :=
  ∀ fc mk, (fc, mk) ∈ [(0x01#8, Instr.replyNormal01), (0x02#8, Instr.replyNormal02), (0x03#8, Instr.replyNormal03),
      (0x04#8, Instr.replyNormal04)] →
    ∀ (addr bc : Byte) (data : Bytes) (crcA crcB : Byte) (s : State),
      s.phase = .awaitingResponse → s.ctxFc = fc → s.ctxExplen = 5 + data.length →
      [crcA, crcB] = place (crc16 ([addr, fc, bc] ++ data)) s.ctxOrder → data.length < bc.toNat →
        exec (mk addr bc data crcA crcB) s =
          .next { ended 0x8#4 bc 0 s with rxbuf := [addr, fc, bc] ++ data ++ [crcA, crcB] }

/-- R177: a checksum-valid write reply ends with OK and no payload, whatever it echoes. -/
def Obligations.WriteRepliesAreOk : Prop :=
  ∀ fc mk, (fc, mk) ∈ [(0x05#8, Instr.replyNormal05), (0x06#8, Instr.replyNormal06), (0x0F#8, Instr.replyNormal0F),
      (0x10#8, Instr.replyNormal10)] →
    ∀ (addr : Byte) (echo1 echo2 : Word) (crcA crcB : Byte) (s : State),
      s.phase = .awaitingResponse → s.ctxFc = fc → s.ctxExplen = 8 →
      [crcA, crcB] = place (crc16 ([addr, fc] ++ be16 echo1 ++ be16 echo2)) s.ctxOrder →
        exec (mk addr echo1 echo2 crcA crcB) s =
          .next { ended 0x0#4 0x00#8 0 s with rxbuf := [addr, fc] ++ be16 echo1 ++ be16 echo2 ++ [crcA, crcB] }

/-- R173, R246, R247: a checksum-valid exception reply to the requested code ends with SLAVE_EXCEPTION for a mapped
code and UNKNOWN_SLAVE_EXCEPTION for any other, the code in `RES_INFO`, from which the kind follows by the table of R172,
whatever length was expected (R213). -/
def Obligations.ExceptionRepliesReportTheirCode : Prop :=
  ∀ fc mk, (fc, mk) ∈ [(0x01#8, Instr.replyException81), (0x02#8, Instr.replyException82),
      (0x03#8, Instr.replyException83), (0x04#8, Instr.replyException84), (0x05#8, Instr.replyException85),
      (0x06#8, Instr.replyException86), (0x0F#8, Instr.replyException8F), (0x10#8, Instr.replyException90)] →
    ∀ (addr code crcA crcB : Byte) (s : State),
      s.phase = .awaitingResponse → s.ctxFc = fc →
      [crcA, crcB] = place (crc16 [addr, fc ||| 0x80#8, code]) s.ctxOrder →
        let t :=
          { ended (if code ∈ [0x01#8, 0x02#8, 0x03#8, 0x04#8, 0x05#8, 0x06#8, 0x0A#8, 0x0B#8] then 0x6#4 else 0x7#4)
            code 0 s with rxbuf := [addr, fc ||| 0x80#8, code, crcA, crcB] }
        exec (mk addr code crcA crcB) s = .next t ∧ resultKind t = exceptionKind code

/-- R211, R244: every reply of the length the block waits for whose checksum bytes do not match ends with
CHECKSUM_ERROR and no payload, normal and exception frames alike. -/
def Obligations.BadChecksumEndsTheExchange : Prop :=
  ∀ (i : Instr) (body : Bytes) (crcA crcB fc : Byte) (s : State),
    contextOf i = some (.reply fc) → encode i = some (body ++ [crcA, crcB]) → s.phase = .awaitingResponse →
    target s.ctxFc s.ctxExplen (body ++ [crcA, crcB]) = body.length + 2 →
    unplace crcA crcB s.ctxOrder ≠ crc16 body →
      exec i s = .next { ended 0x4#4 0x00#8 0 s with rxbuf := body ++ [crcA, crcB] }

/-- R84, R178, R245: a checksum-valid reply row met with another request outstanding, neither its code nor its
exception form, ends with PROTOCOL_ERROR and its byte 1 in `RES_INFO`. -/
def Obligations.ForeignRepliesAreProtocolErrors : Prop :=
  ∀ (i : Instr) (a b1 : Byte) (rest : Bytes) (crcA crcB fc : Byte) (s : State),
    contextOf i = some (.reply fc) → encode i = some (a :: b1 :: rest ++ [crcA, crcB]) → s.phase = .awaitingResponse →
    s.ctxExplen = rest.length + 4 → b1 ≠ s.ctxFc → b1 ≠ (s.ctxFc ||| 0x80#8) →
    unplace crcA crcB s.ctxOrder = crc16 (a :: b1 :: rest) →
      exec i s = .next { ended 0x5#4 b1 0 s with rxbuf := a :: b1 :: rest ++ [crcA, crcB] }

/-- R205 to R207 for a reply row off its target: a frame shorter than the block waits for is kept and the block reads
on; of a longer one the bytes past the target stay in the transport. The model's reading, log 11. -/
def Obligations.RepliesOffTheirTarget : Prop :=
  ∀ (i : Instr) (f : Bytes) (fc : Byte) (s : State), contextOf i = some (.reply fc) → encode i = some f →
    s.phase = .awaitingResponse →
    (f.length < target s.ctxFc s.ctxExplen f → exec i s = .next { s with rxbuf := f }) ∧
    (target s.ctxFc s.ctxExplen f < f.length →
      exec i s = .next (completeFrame
        { s with
          rxbuf := f.take (target s.ctxFc s.ctxExplen f)
          rx := .data (f.drop (target s.ctxFc s.ctxExplen f)) :: s.rx }))

/-- R217, R44: a reply frame that comes while the block is idle is not read: it stays in the transport. The model's
reading, log 11. -/
def Obligations.RepliesWhileIdleStayInTheTransport : Prop :=
  ∀ (i : Instr) (f : Bytes) (fc : Byte) (s : State), contextOf i = some (.reply fc) → encode i = some f →
    s.phase = .idle → exec i s = .next { s with rx := s.rx ++ [.data f] }

/-! ### The step -/

/-- A step of the block runs the instruction it comes to: the command at the head of the port of an idle block, or the
reply row its complete buffer decodes to. -/
def Obligations.StepRunsTheInstruction : Prop :=
  (∀ (s : State) (c : Command) (cs : List Command), BlockTurn s → s.phase = .idle → s.port = c :: cs →
    step s = exec (instrOf c) { s with turns := s.turns.tail, port := cs }) ∧
  (∀ (s : State) (bs : Bytes) (rest : List RxOutcome) (i : Instr), BlockTurn s → s.phase = .awaitingResponse →
    s.rx = .data bs :: rest → bs ≠ [] → bs.length ≤ target s.ctxFc s.ctxExplen s.rxbuf - s.rxbuf.length →
    target s.ctxFc s.ctxExplen (s.rxbuf ++ bs) ≤ (s.rxbuf ++ bs).length →
    decode (.reply s.ctxFc) (s.rxbuf ++ bs) = .ok i →
      step s = exec i
        { afterRead (target s.ctxFc s.ctxExplen s.rxbuf - s.rxbuf.length) rest s with rxbuf := s.rxbuf ++ bs })

/-- R206: in a state the block can be in, a read asks for exactly the missing bytes, at least one, and takes no more
than it asks for; what the transport held past them stays its first bytes. -/
def Obligations.ReadsTakeExactlyTheMissingBytes : Prop :=
  ∀ (s : State) (bs : Bytes) (rest : List RxOutcome), s.Inv → BlockTurn s → s.phase = .awaitingResponse →
    s.rx = .data bs :: rest → bs ≠ [] →
      let cap := target s.ctxFc s.ctxExplen s.rxbuf - s.rxbuf.length
      1 ≤ cap ∧ ∃ t, step s = .next t ∧ t.trace = s.trace ++ [.rxRead cap] ∧ t.rxbuf = s.rxbuf ++ bs.take cap ∧
        t.rx = if bs.length ≤ cap then rest else .data (bs.drop cap) :: rest

/-- R207: a chunk that leaves the buffer below its re-evaluated target is appended and the block reads on. -/
def Obligations.ShortChunkIsAppended : Prop :=
  ∀ (s : State) (bs : Bytes) (rest : List RxOutcome), BlockTurn s → s.phase = .awaitingResponse →
    s.rx = .data bs :: rest → bs ≠ [] →
    let cap := target s.ctxFc s.ctxExplen s.rxbuf - s.rxbuf.length
    bs.length ≤ cap → (s.rxbuf ++ bs).length < target s.ctxFc s.ctxExplen (s.rxbuf ++ bs) →
      step s = .next { afterRead cap rest s with rxbuf := s.rxbuf ++ bs }

/-- R210 to R212, R215: the chunk that brings the buffer to its target completes the frame in the same step, whatever
its byte 1 is: CHECKSUM_ERROR, or the parser's result. -/
def Obligations.CompleteFrameIsValidatedThenDecoded : Prop :=
  ∀ (s : State) (bs body : Bytes) (crcA crcB : Byte) (rest : List RxOutcome), BlockTurn s →
    s.phase = .awaitingResponse → s.rx = .data bs :: rest → bs ≠ [] →
    let cap := target s.ctxFc s.ctxExplen s.rxbuf - s.rxbuf.length
    bs.length ≤ cap → s.rxbuf ++ bs = body ++ [crcA, crcB] →
    target s.ctxFc s.ctxExplen (s.rxbuf ++ bs) = (s.rxbuf ++ bs).length →
    let r := if unplace crcA crcB s.ctxOrder = crc16 body then parse body s.ctxFc
      else ⟨.checksumError, 0x00#8, []⟩
    step s = .next
      { ended (statusCode r.status) r.info r.data.length (afterRead cap rest s) with
        rxbuf := s.rxbuf ++ bs
        payload := if r.status = .ok then memWrite s.payload 0 r.data else s.payload }

/-- R208, R209: a zero-byte read ends the exchange with TIMEOUT_ERROR and a failed read with TRANSPORT_ERROR, whatever
was accumulated; no payload. That an entry `data` of no bytes is a zero-byte read is the model's choice, log 4. -/
def Obligations.ZeroAndFailedReadsEndTheExchange : Prop :=
  ∀ (s : State) (rest : List RxOutcome), BlockTurn s → s.phase = .awaitingResponse →
    let cap := target s.ctxFc s.ctxExplen s.rxbuf - s.rxbuf.length
    (s.rx = .zero :: rest ∨ s.rx = .data [] :: rest →
      step s = .next (ended 0x3#4 0x00#8 0 (afterRead cap rest s))) ∧
    (s.rx = .fail :: rest → step s = .next (ended 0x2#4 0x00#8 0 (afterRead cap rest s)))

/-- R205: the number of bytes the loop waits for. -/
def Obligations.TargetLength : Prop :=
  ∀ (fc : Byte) (explen : Nat) (buf : Bytes),
    (buf.length < 5 → target fc explen buf = 5) ∧
    (∀ a b1 rest, buf = a :: b1 :: rest → 5 ≤ buf.length → b1 = (fc ||| 0x80#8) → target fc explen buf = 5) ∧
    (∀ a b1 rest, buf = a :: b1 :: rest → 5 ≤ buf.length → b1 ≠ (fc ||| 0x80#8) → target fc explen buf = explen)

/-- R262: an idle block with no command does nothing. That a block whose transport has not answered waits, its state as
it is, is the model's choice (log 4) for a read that has not returned (R281). -/
def Obligations.NothingToDoChangesNothing : Prop :=
  ∀ s : State, BlockTurn s → (s.phase = .idle ∧ s.port = []) ∨ (s.phase = .awaitingResponse ∧ s.rx = []) →
    step s = .next { s with turns := s.turns.tail }

/-- R217: a step that starts in Idle takes nothing from the transport and issues no read. -/
def Obligations.IdleBlockReadsNothing : Prop :=
  ∀ s t : State, s.phase = .idle → step s = .next t → t.rx = s.rx ∧ ∀ cap, t.trace ≠ s.trace ++ [.rxRead cap]

/-- R270, R271: RESET, in whatever phase, leaves the block idle with `RXBUF` empty and `DONE = 0`; bytes in the transport
stay. That the waiting commands, the write outcomes to come, the turns and the record stay too is the model's reading
(logs 13 and 8). -/
def Obligations.ResetAbandonsTheExchange : Prop :=
  ∀ (s : State) (ts : List Turn), s.turns = .host .reset :: ts →
    ∃ t, step s = .next t ∧ t.phase = .idle ∧ t.rxbuf = [] ∧ t.done = false ∧ t.rx = s.rx ∧ t.port = s.port ∧
      t.tx = s.tx ∧ t.draws = s.draws ∧ t.trace = s.trace ∧ t.turns = ts

/-- R270: the reset values the spec gives, of the reset state and after RESET. -/
def Obligations.ResetState : Prop :=
  State.reset.phase = .idle ∧ State.reset.rxbuf = [] ∧ State.reset.done = false

/-! ### The host's ports -/

/-- R38, R111, R181: a query, in any phase, changes nothing of the block, and its answer is that function of its
arguments; `parse` outside its domain is refused. That the answer is recorded is the model's choice (log 8), and that a
query about a request whose list is not admitted is refused is its reading of R148 (log 16). -/
def Obligations.QueriesDisturbNothing : Prop :=
  ∀ (s : State) (q : Query) (ts : List Turn), s.turns = .host (.query q) :: ts →
    (∀ a, ((∃ bs, q = .crc16 bs ∧ a = .word (crc16 bs)) ∨
        (∃ req ord, q = .serialize req ord ∧ admitted req = true ∧ a = .bytes (serialize req ord)) ∨
        (∃ req, q = .functionCode req ∧ admitted req = true ∧ a = .byte (functionCode req)) ∨
        (∃ req, q = .expectedResponseLength req ∧ admitted req = true ∧ a = .length (expectedResponseLength req)) ∨
        (∃ raw fc, q = .parse raw fc ∧ 3 ≤ raw.length ∧
          fc ∈ [0x01#8, 0x02#8, 0x03#8, 0x04#8, 0x05#8, 0x06#8, 0x0F#8, 0x10#8] ∧ a = .result (parse raw fc)) ∨
        (∃ code, q = .decodeException code ∧ a = .result (decodeException code))) →
      step s = .next { s with turns := ts, trace := s.trace ++ [.answered a] }) ∧
    (∀ raw fc, q = .parse raw fc →
      raw.length < 3 ∨ fc ∉ [0x01#8, 0x02#8, 0x03#8, 0x04#8, 0x05#8, 0x06#8, 0x0F#8, 0x10#8] →
        step s = .refused .parseOperands) ∧
    (∀ req ord, q = .serialize req ord ∨ q = .functionCode req ∨ q = .expectedResponseLength req →
      admitted req = false → step s = .refused .listTooLong)

/-- R39: what the host may read and when. That a read the spec gives no value faults is the model's reading of U3 (log
14), and that an answer is recorded its choice (log 8). -/
def Obligations.ResultPortsFollowDone : Prop :=
  ∀ (s : State) (p : ResultPort) (ts : List Turn), s.turns = .host (.read p) :: ts →
    (p = .done → step s = .next { s with turns := ts, trace := s.trace ++ [.answered (.bit s.done)] }) ∧
    (p = .status → s.done = true →
      step s = .next { s with turns := ts, trace := s.trace ++ [.answered (.code s.resStatus)] }) ∧
    (p = .info → s.done = true →
      step s = .next { s with turns := ts, trace := s.trace ++ [.answered (.byte s.resInfo)] }) ∧
    (p = .count → s.done = true →
      step s = .next { s with turns := ts, trace := s.trace ++ [.answered (.length s.resCount)] }) ∧
    (p = .status ∨ p = .info ∨ p = .count → s.done = false → step s = .fault .resultNotReady) ∧
    (∀ (k : Nat) (h : k < 255), p = .payload k → s.done = true → s.resStatus = 0x0#4 → k < s.resCount →
      step s = .next { s with turns := ts, trace := s.trace ++ [.answered (.byte s.payload[k])] }) ∧
    (∀ k, p = .payload k → s.done = false ∨ s.resStatus ≠ 0x0#4 ∨ s.resCount ≤ k → step s = .fault .payloadNotReadable)

/-- R30: BUSY is PHASE = AwaitingResponse. R276: the host may close the transport while the block is not BUSY, and
closing it while BUSY has no meaning. That the latter is a refusal, and that opening (in any phase) and closing leave
block and transport as they are, is the model's choice, log 7. -/
def Obligations.CloseOnlyWhileNotBusy : Prop :=
  ∀ s : State, (busy s = true ↔ s.phase = .awaitingResponse) ∧ ∀ ts : List Turn,
    (s.turns = .host .closeTransport :: ts →
      (busy s = true → step s = .refused .closeWhileBusy) ∧
      (busy s = false → step s = .next { s with turns := ts })) ∧
    (s.turns = .host .openTransport :: ts → step s = .next { s with turns := ts })

/-! ### Every step -/

/-- R45: every step keeps the invariants. -/
def Obligations.StepKeepsInv : Prop := ∀ s t : State, s.Inv → step s = .next t → t.Inv

/-- R45 holds at reset. -/
def Obligations.ResetHasInv : Prop := State.reset.Inv

/-- R25 to R27: apart from RESET, the context registers change only in the step that enters AwaitingResponse, from a
command taken from the port. -/
def Obligations.ContextChangesOnlyOnAcceptance : Prop :=
  ∀ s t : State, step s = .next t → s.turns.head? ≠ some (.host .reset) →
    (t.ctxOrder = s.ctxOrder ∧ t.ctxFc = s.ctxFc ∧ t.ctxExplen = s.ctxExplen) ∨
    ∃ c cs, BlockTurn s ∧ s.phase = .idle ∧ s.port = c :: cs ∧ t.port = cs ∧ t.phase = .awaitingResponse ∧
      t.rxbuf = [] ∧ selectedOrder c.sel = some t.ctxOrder ∧ t.ctxFc = functionCode c.req ∧
      t.ctxExplen = expectedResponseLength c.req

/-- R214: apart from RESET, `PAYLOAD` changes only in a step that ends an exchange with OK, of a read, on a frame that
passes the check, and only below `RES_COUNT`. -/
def Obligations.PayloadIsAllOrNothing : Prop :=
  ∀ s t : State, step s = .next t → s.turns.head? ≠ some (.host .reset) → t.payload ≠ s.payload →
    s.phase = .awaitingResponse ∧ t.phase = .idle ∧ t.done = true ∧ t.resStatus = 0x0#4 ∧
      s.ctxFc ∈ [0x01#8, 0x02#8, 0x03#8, 0x04#8] ∧ check t.rxbuf s.ctxOrder = true ∧
      ∀ (k : Nat) (h : k < 255), t.resCount ≤ k → t.payload[k] = s.payload[k]

/-- R29, R31: apart from RESET, the three result registers change, and `DONE` is set, only in a turn of the block that
ends an exchange: it takes the command at the port of an idle block, or a read returns in AwaitingResponse, and it
leaves `DONE = 1` in Idle. `DONE` is cleared only in a turn of the block that takes the command at the port and enters
AwaitingResponse. -/
def Obligations.ResultsAreWrittenOnlyByFinish : Prop :=
  ∀ s t : State, step s = .next t → s.turns.head? ≠ some (.host .reset) →
    ((t.resStatus ≠ s.resStatus ∨ t.resInfo ≠ s.resInfo ∨ t.resCount ≠ s.resCount ∨ (s.done = false ∧ t.done = true)) →
      BlockTurn s ∧ t.done = true ∧ t.phase = .idle ∧
        ((s.phase = .idle ∧ ∃ c cs, s.port = c :: cs ∧ t.port = cs) ∨
          (s.phase = .awaitingResponse ∧ s.rx ≠ [] ∧ ∃ cap, t.trace = s.trace ++ [.rxRead cap]))) ∧
    (s.done = true → t.done = false →
      BlockTurn s ∧ s.phase = .idle ∧ t.phase = .awaitingResponse ∧ ∃ c cs, s.port = c :: cs ∧ t.port = cs)

/-- R220, R223: a step shows at most one event, and a frame goes to the transport only in the step that accepts a
command, as the frame of that command in the order its selector names. -/
def Obligations.OneFramePerAcceptedCommand : Prop :=
  ∀ s t : State, step s = .next t →
    (t.trace = s.trace ∨ ∃ e, t.trace = s.trace ++ [e]) ∧
    ∀ frame, t.trace = s.trace ++ [.txWrite frame] →
      s.phase = .idle ∧ ∃ c cs ord, s.port = c :: cs ∧ t.port = cs ∧ selectedOrder c.sel = some ord ∧
        frame = serialize c.req ord

/-- R37, R218: while an exchange is in progress no step takes a command from the port or writes a frame. -/
def Obligations.BusyBlockAcceptsNoCommand : Prop :=
  ∀ s t : State, s.phase = .awaitingResponse → step s = .next t →
    t.port = s.port ∧ ∀ frame, t.trace ≠ s.trace ++ [.txWrite frame]

/-- R219: no host move ends an exchange: apart from RESET, a step from AwaitingResponse to Idle is one in which a read of
the transport returned. -/
def Obligations.OnlyReadsAndResetEndAnExchange : Prop :=
  ∀ s t : State, s.phase = .awaitingResponse → step s = .next t → t.phase = .idle →
    (∃ ts, s.turns = .host .reset :: ts) ∨ (BlockTurn s ∧ s.rx ≠ [] ∧ ∃ cap, t.trace = s.trace ++ [.rxRead cap])

/-! ### Whole exchanges -/

/-- R216, R281: from a state the block can be in, an exchange whose transport keeps answering ends, in at most as many
steps as bytes are missing to the expected length. -/
def Obligations.ExchangesEnd : Prop :=
  ∀ s : State, s.Inv → s.phase = .awaitingResponse → s.turns = [] → s.ctxExplen - s.rxbuf.length ≤ s.rx.length →
    ∃ k t, k ≤ s.ctxExplen - s.rxbuf.length ∧ Sys2Proof.core.run k s = .next t ∧ t.phase = .idle ∧ t.done = true

/-- The chunking of a reply does not change the result (95_test_vectors.md section 2.5, V65 to V67): however the
transport splits the bytes that complete the frame, the block's registers end as one read of them all would leave
them, and nothing past the frame is taken. -/
def Obligations.ChunkingDoesNotChangeTheResult : Prop :=
  ∀ (s : State) (chunks : List Bytes) (rest : List RxOutcome), s.Inv → s.phase = .awaitingResponse → s.turns = [] →
    (∀ ch ∈ chunks, ch ≠ []) → s.rx = chunks.map RxOutcome.data ++ rest →
    target s.ctxFc s.ctxExplen (s.rxbuf ++ chunks.flatten) = (s.rxbuf ++ chunks.flatten).length →
      ∃ k t, Sys2Proof.core.run k s = .next t ∧
        t = { completeFrame { s with rxbuf := s.rxbuf ++ chunks.flatten } with rx := rest, trace := t.trace }

/-! ### What the host sees -/

/-- R23: the host "reads the result registers only (R39)". Two states that agree on `DONE`, the result registers and
`PAYLOAD` answer every host read alike, whatever their `PHASE`, context and `RXBUF` are. That an answer is recorded is
the model's choice (log 8), and that a read with no value faults its reading (log 14). -/
def Obligations.HostReadsShowOnlyTheResult : Prop :=
  ∀ (s s' : State) (p : ResultPort) (ts ts' : List Turn),
    s.turns = .host (.read p) :: ts → s'.turns = .host (.read p) :: ts' →
    s'.done = s.done → s'.resStatus = s.resStatus → s'.resInfo = s.resInfo → s'.resCount = s.resCount →
    s'.payload = s.payload →
      (∃ a, step s = .next { s with turns := ts, trace := s.trace ++ [.answered a] } ∧
        step s' = .next { s' with turns := ts', trace := s'.trace ++ [.answered a] }) ∨
      ∃ f, step s = .fault f ∧ step s' = .fault f
end

