-- ==== Sys2Proof/Laws/Operands.lean ====
section
/-! SUPPORT. Laws of the operand forms: bytes of a word, packing and unpacking, selectors, commands. -/

namespace Sys2Proof.Machine

theorem hi8_toNat (w : Word) : (hi8 w).toNat = w.toNat / 256 := by
  simp only [hi8, BitVec.extractLsb'_toNat, Nat.shiftRight_eq_div_pow]
  have := w.isLt
  omega

theorem lo8_toNat (w : Word) : (lo8 w).toNat = w.toNat % 256 := by
  simp [lo8, BitVec.extractLsb'_toNat]

theorem lo8_eq_setWidth (w : Word) : lo8 w = w.setWidth 8 := by
  apply BitVec.eq_of_toNat_eq; simp [lo8_toNat]

theorem ofBe16_toNat (h l : Byte) : (ofBe16 h l).toNat = 256 * h.toNat + l.toNat := by
  have hl := l.isLt
  simp only [ofBe16, BitVec.toNat_append, Nat.shiftLeft_eq]
  rw [Nat.mul_comm, ← Nat.two_pow_add_eq_or_of_lt hl]

@[simp] theorem ofBe16_hi8_lo8 (w : Word) : ofBe16 (hi8 w) (lo8 w) = w := by
  apply BitVec.eq_of_toNat_eq
  rw [ofBe16_toNat, hi8_toNat, lo8_toNat]; omega

@[simp] theorem hi8_ofBe16 (h l : Byte) : hi8 (ofBe16 h l) = h := by
  apply BitVec.eq_of_toNat_eq
  have := l.isLt
  rw [hi8_toNat, ofBe16_toNat]; omega

@[simp] theorem lo8_ofBe16 (h l : Byte) : lo8 (ofBe16 h l) = l := by
  apply BitVec.eq_of_toNat_eq
  have := l.isLt
  rw [lo8_toNat, ofBe16_toNat]; omega

@[simp] theorem be16_ofBe16 (h l : Byte) : be16 (ofBe16 h l) = [h, l] := by simp [be16]

@[simp] theorem length_be16 (w : Word) : (be16 w).length = 2 := rfl

@[simp] theorem length_valueBytes (values : List Word) : (valueBytes values).length = 2 * values.length := by
  induction values with
  | nil => rfl
  | cons w ws ih => simp only [valueBytes, List.flatMap_cons, List.length_append, length_be16, List.length_cons] at *; omega

@[simp] theorem wordsOf_valueBytes (values : List Word) : wordsOf (valueBytes values) = values := by
  induction values with
  | nil => rfl
  | cons w ws ih => simpa [valueBytes, be16, wordsOf] using ih

theorem valueBytes_wordsOf (n : Nat) (bs : Bytes) (h : bs.length = 2 * n) :
    valueBytes (wordsOf bs) = bs ∧ (wordsOf bs).length = n := by
  induction n generalizing bs with
  | zero => simp_all [wordsOf, valueBytes]
  | succ n ih =>
    match bs, h with
    | h :: l :: rest, hl =>
      obtain ⟨h1, h2⟩ := ih rest (by simp at hl; omega)
      simp only [valueBytes] at h1
      simp [wordsOf, valueBytes, h1, h2]

theorem word16_toNat (n : Nat) (h : n < 65536) : (word16 n).toNat = n := by
  simp [word16, BitVec.toNat_ofNat]; omega

/-! ### Coil packing -/

@[simp] theorem length_pack (coils : List Bool) : (pack coils).length = ceil8 coils.length := by simp [pack]

@[simp] theorem length_unpack (n : Nat) (bitmap : Bytes) : (unpack n bitmap).length = n := by simp [unpack]

/-- A fold that sets the bits of `f` from 0 up: bit `j` of the result is `f j` if it was reached. -/
theorem setBits_fold (f : Nat → Bool) (j n : Nat) (hj : j < 8) :
    ((List.range n).foldl (fun out i => if f i then out ||| (1#8 <<< i) else out) 0#8).getLsbD j = (decide (j < n) && f j) := by
  induction n with
  | zero => simp
  | succ n ih =>
    rw [List.range_succ, List.foldl_append, List.foldl_cons, List.foldl_nil]
    generalize (List.range n).foldl _ 0#8 = acc at ih ⊢
    have hbit : (1#8 <<< n).getLsbD j = decide (j = n) := by
      rw [BitVec.getLsbD_shiftLeft]
      by_cases hlt : j < n
      · simp [hlt]; omega
      · have : (decide (j = n)) = (decide (j - n = 0)) := by congr 1; apply propext; omega
        simp [hj, hlt, this, BitVec.getLsbD_one]
    have hsplit : decide (j < n + 1) = (decide (j < n) || decide (j = n)) := by
      rw [← Bool.decide_or]; congr 1; apply propext; omega
    cases hf : f n
    · rw [if_neg (by simp), ih, hsplit]
      by_cases hjn : j = n
      · subst hjn; simp [hf]
      · simp [hjn]
    · rw [if_pos rfl, BitVec.getLsbD_or, ih, hbit, hsplit]
      by_cases hjn : j = n
      · subst hjn; simp [hf]
      · simp [hjn]

/-- R140: bit `j` of packed byte `k` is coil `8k + j`. -/
theorem packByte_bit (coils : List Bool) (k j : Nat) (hj : j < 8) :
    (packByte coils k).getLsbD j = coils.getD (8 * k + j) false := by
  rw [packByte, setBits_fold (fun i => coils.getD (8 * k + i) false) j 8 hj]
  simp [hj]

@[simp] theorem unpack_pack (coils : List Bool) : unpack coils.length (pack coils) = coils := by
  apply List.ext_getElem (by simp)
  intro i h1 h2
  have hk : i / 8 < ceil8 coils.length := by simp [ceil8]; omega
  have hi : 8 * (i / 8) + i % 8 = i := by omega
  simp only [unpack, List.getElem_map, List.getElem_range]
  rw [List.getD_eq_getElem _ _ (by simpa using hk)]
  simp only [pack, List.getElem_map, List.getElem_range]
  rw [packByte_bit _ _ _ (by omega), hi, List.getD_eq_getElem _ _ h2]

/-! ### Selectors and commands -/

@[simp] theorem selectedOrder_selectorOf (ord : ChecksumOrder) : selectedOrder (selectorOf ord) = some ord := by
  cases ord <;> decide

theorem selectorOf_of_selected {sel : Byte} {ord : ChecksumOrder} (h : selectedOrder sel = some ord) :
    selectorOf ord = sel := by
  unfold selectedOrder at h
  split at h
  · cases h; simp [selectorOf, *]
  · split at h
    · cases h; simp [selectorOf, *]
    · cases h

theorem selectedOrder_none {sel : Byte} (h0 : sel ≠ 0x00#8) (h1 : sel ≠ 0x01#8) : selectedOrder sel = none := by
  simp [selectedOrder, h0, h1]

@[simp] theorem commandOf_instrOf (c : Command) : commandOf (instrOf c) = some c := by
  obtain ⟨req, sel⟩ := c
  cases req <;> rfl

theorem instrOf_of_commandOf {i : Instr} {c : Command} (h : commandOf i = some c) : i = instrOf c := by
  cases i <;> simp [commandOf] at h <;> subst h <;> rfl

end Sys2Proof.Machine
end

