-- ==== Sys2Proof/Laws/Checksum.lean ====
section
/-! SUPPORT. Laws of the Checksum Engine: the shift step is linear and injective, the fold, placing and checking. -/

namespace Sys2Proof.Machine

theorem crcShift_xor (a b : Word) : crcShift (a ^^^ b) = crcShift a ^^^ crcShift b := by
  unfold crcShift
  rw [BitVec.getLsbD_xor, BitVec.ushiftRight_xor_distrib]
  cases a.getLsbD 0 <;> cases b.getLsbD 0 <;> simp
  · simp [BitVec.xor_assoc]
  · rw [BitVec.xor_assoc, BitVec.xor_assoc, BitVec.xor_comm (b >>> 1)]
  · rw [show ∀ x y k : Word, x ^^^ y = (x ^^^ k) ^^^ (y ^^^ k) from fun x y k => by
      rw [BitVec.xor_assoc, BitVec.xor_comm y k, ← BitVec.xor_assoc k k y]; simp]

theorem crcShift8_xor (a b : Word) : crcShift8 (a ^^^ b) = crcShift8 a ^^^ crcShift8 b := by
  simp only [crcShift8, crcShift_xor]

/-- The step loses nothing: only zero becomes zero. -/
theorem crcShift_eq_zero {c : Word} (h : crcShift c = 0) : c = 0 := by
  unfold crcShift at h
  split at h
  · have h15 : ((c >>> 1) ^^^ 0xA001#16).getLsbD 15 = false := by rw [h]; simp
    simp at h15
  · rename_i h0
    apply BitVec.eq_of_getLsbD_eq
    intro i hi
    rcases i with _ | i
    · simpa using h0
    · have := congrArg (fun v : Word => v.getLsbD i) h
      simpa [BitVec.getLsbD_ushiftRight, Nat.add_comm] using this

theorem crcShift8_eq_zero {c : Word} (h : crcShift8 c = 0) : c = 0 := by
  unfold crcShift8 at h
  iterate 8 replace h := crcShift_eq_zero h
  exact h

theorem crcShift8_injective {a b : Word} (h : crcShift8 a = crcShift8 b) : a = b := by
  have h0 : crcShift8 (a ^^^ b) = 0 := by rw [crcShift8_xor, h]; simp
  exact BitVec.xor_eq_zero_iff.mp (crcShift8_eq_zero h0)

/-- Eight steps move a high byte down. -/
theorem crcShift8_high : ∀ b : Byte, crcShift8 (b.setWidth 16 <<< 8) = b.setWidth 16 := by decide +kernel

theorem word_split (c : Word) : c = ((hi8 c).setWidth 16 <<< 8) ^^^ (lo8 c).setWidth 16 := by
  apply BitVec.eq_of_getLsbD_eq
  intro i hi
  simp only [hi8, lo8, BitVec.getLsbD_xor, BitVec.getLsbD_shiftLeft, BitVec.getLsbD_setWidth, BitVec.getLsbD_extractLsb']
  by_cases h : i < 8
  · simp [h, hi]
  · simp [h, hi, show i - 8 < 8 by omega, show i - 8 < 16 by omega, show 8 + (i - 8) = i by omega]

theorem shiftRight8 (c : Word) : c >>> 8 = (hi8 c).setWidth 16 := by
  apply BitVec.eq_of_toNat_eq
  have := c.isLt
  simp [hi8_toNat, BitVec.toNat_ushiftRight, Nat.shiftRight_eq_div_pow, BitVec.toNat_setWidth]
  omega

/-- One byte of the fold is eight steps of the bit-serial form (R104). -/
theorem crcUpdate_eq_shift8 (c : Word) (b : Byte) : crcUpdate c b = crcShift8 (c ^^^ b.setWidth 16) := by
  conv_rhs => rw [word_split c, BitVec.xor_assoc, crcShift8_xor, crcShift8_high]
  rw [crcUpdate, crcTable, shiftRight8, BitVec.setWidth_xor]

theorem crcUpdate_xor (c d : Word) (x y : Byte) :
    crcUpdate (c ^^^ d) (x ^^^ y) = crcUpdate c x ^^^ crcUpdate d y := by
  rw [crcUpdate_eq_shift8, crcUpdate_eq_shift8, crcUpdate_eq_shift8, ← crcShift8_xor, BitVec.setWidth_xor]
  congr 1
  ac_rfl

theorem crcUpdate_injective {c d : Word} {b : Byte} (h : crcUpdate c b = crcUpdate d b) : c = d := by
  rw [crcUpdate_eq_shift8, crcUpdate_eq_shift8] at h
  have h' := crcShift8_injective h
  simpa [BitVec.xor_assoc] using congrArg (· ^^^ b.setWidth 16) h'

theorem crcFrom_append (c : Word) (a b : Bytes) : crcFrom c (a ++ b) = crcFrom (crcFrom c a) b := by
  simp [crcFrom, List.foldl_append]

@[simp] theorem crcFrom_nil (c : Word) : crcFrom c [] = c := rfl

@[simp] theorem crcFrom_cons (c : Word) (b : Byte) (bs : Bytes) : crcFrom c (b :: bs) = crcFrom (crcUpdate c b) bs := rfl

/-- Two different values never meet over the same bytes. -/
theorem crcFrom_injective {c d : Word} {bs : Bytes} (h : crcFrom c bs = crcFrom d bs) : c = d := by
  induction bs generalizing c d with
  | nil => exact h
  | cons b bs ih => exact crcUpdate_injective (ih h)

/-- Feeding a value its own two bytes, low byte first, gives zero. -/
theorem crcFrom_self (c : Word) : crcFrom c [lo8 c, hi8 c] = 0 := by
  have h0 : crcTable 0#8 = 0#16 := by decide
  have h1 : lo8 (c >>> 8) = hi8 c := by
    apply BitVec.eq_of_toNat_eq
    have := c.isLt
    simp [lo8_toNat, hi8_toNat, BitVec.toNat_ushiftRight, Nat.shiftRight_eq_div_pow]
    omega
  have h2 : c >>> 8 >>> 8 = 0 := by
    apply BitVec.eq_of_toNat_eq
    have := c.isLt
    simp [BitVec.toNat_ushiftRight, Nat.shiftRight_eq_div_pow]
    omega
  simp only [crcFrom_cons, crcFrom_nil, crcUpdate, BitVec.xor_self, h0, BitVec.xor_zero, h1, h2]

/-! ### Placing and checking -/

@[simp] theorem length_place (c : Word) (ord : ChecksumOrder) : (place c ord).length = 2 := by cases ord <;> rfl

@[simp] theorem length_sealFrame (body : Bytes) (ord : ChecksumOrder) : (sealFrame body ord).length = body.length + 2 := by
  simp [sealFrame]

/-- What `check` compares, on a frame written as body and two bytes. -/
theorem check_append (body : Bytes) (b0 b1 : Byte) (ord : ChecksumOrder) :
    check (body ++ [b0, b1]) ord = decide (unplace b0 b1 ord = crc16 body) := by
  simp [check]

theorem unplace_place (c : Word) (ord : ChecksumOrder) (b0 b1 : Byte) (h : place c ord = [b0, b1]) :
    unplace b0 b1 ord = c := by
  cases ord <;> simp [place] at h <;> obtain ⟨rfl, rfl⟩ := h <;> simp [unplace]

theorem place_unplace (b0 b1 : Byte) (ord : ChecksumOrder) : place (unplace b0 b1 ord) ord = [b0, b1] := by
  cases ord <;> simp [place, unplace]

/-- Every frame of two bytes or more is a body and two bytes. -/
theorem exists_body_append {f : Bytes} (h : 2 ≤ f.length) :
    f = f.take (f.length - 2) ++ [f.getD (f.length - 2) 0#8, f.getD (f.length - 1) 0#8] := by
  conv_lhs => rw [← List.take_append_drop (f.length - 2) f]
  congr 1
  rw [List.drop_eq_getElem_cons (by omega), List.drop_eq_getElem_cons (by omega), List.drop_eq_nil_of_le (by omega)]
  simp [List.getD_eq_getElem?_getD, show f.length - 2 < f.length by omega,
    show f.length - 1 < f.length by omega, show f.length - 2 + 1 = f.length - 1 by omega]

end Sys2Proof.Machine
end

