-- ==== Sys2Proof/Laws/Decode.lean ====
section
/-! SUPPORT. Laws of the codec and the decoder: request bodies both ways, reply frames back to their bytes. -/

namespace Sys2Proof

open Sys2Proof.Machine

theorem decodeSix_ok {rest : Bytes} {r : Except DecodeError Req} {req : Req} (h : decodeSix rest r = .ok req) :
    rest = [] ∧ r = .ok req := by
  unfold decodeSix at h
  split at h
  · exact ⟨‹_›, h⟩
  · cases h

/-- Decoding the body of an admitted request gives it back. -/
theorem decodeBody_requestBody (req : Req) (h : admitted req = true) : decodeBody (requestBody req) = .ok req := by
  cases req with
  | readCoils | readInputs | readHoldingRegisters | readInputRegisters | writeSingleRegister =>
    simp [requestBody, requestHeader, be16, decodeBody, decodeSix]
  | writeSingleCoil addr offset on =>
    cases on <;> simp [requestBody, requestHeader, be16, decodeBody, decodeSix, coilValue]
  | writeMultiCoils addr offset coils =>
    simp only [admitted, decide_eq_true_eq, Config.maxCoils] at h
    have hn := word16_toNat coils.length (by omega)
    have hc : ceil8 coils.length < 256 := by simp only [ceil8]; omega
    simp [requestBody, requestHeader, be16, decodeBody, decodeCoils, hn, Nat.mod_eq_of_lt hc]
  | writeMultiRegisters addr offset values =>
    simp only [admitted, decide_eq_true_eq, Config.maxValues] at h
    have hn := word16_toNat values.length (by omega)
    have hb : 2 * values.length < 256 := by omega
    simp [requestBody, requestHeader, be16, decodeBody, decodeRegisters, hn, Nat.mod_eq_of_lt hb, Nat.add_comm]
  | writeMultiRegistersVendor addr offset values =>
    simp only [admitted, decide_eq_true_eq, Config.maxVendorValues] at h
    have hn := word16_toNat values.length (by omega)
    have hb := word16_toNat (2 * values.length) (by omega)
    have h1 : ¬ 2 * values.length + 1 + 1 = 1 + 2 * values.length := by omega
    have h2 : 2 * values.length + 1 + 1 = 2 + 2 * values.length := by omega
    simp only [requestBody, requestHeader, be16, decodeBody, decodeRegisters, ofBe16_hi8_lo8, hn, hb, List.cons_append,
      List.nil_append, List.length_cons, length_valueBytes, wordsOf_valueBytes, if_neg h1, if_pos h2, if_pos]
    rfl

theorem ofNat_toNat_eq {bc : Byte} {n : Nat} (h : bc.toNat = n) : BitVec.ofNat 8 n = bc := by
  subst h; simp

theorem word16_toNat_eq (w : Word) : word16 w.toNat = w := by simp [word16]

theorem requestBody_of_decodeCoils {addr : Byte} {offset : Word} {n : Nat} {rest : Bytes} {req : Req}
    (h : decodeCoils addr offset n rest = .ok req) :
    requestBody req = requestHeader addr 0x0F#8 offset (word16 n) ++ rest ∧ admitted req = true := by
  match rest, h with
  | [], h => cases h
  | bc :: bitmap, h =>
    simp only [decodeCoils] at h
    split at h
    · rename_i hbc
      split at h
      · split at h
        · rename_i hlen hpad
          cases h
          have hlt := bc.isLt
          have hn : n ≤ 2040 := by simp only [ceil8] at hbc; omega
          simp [requestBody, ofNat_toNat_eq hbc, hpad, admitted, Config.maxCoils, hn]
        · cases h
      · cases h
    · cases h

theorem requestBody_of_decodeRegisters {addr : Byte} {offset : Word} {n : Nat} {rest : Bytes} {req : Req}
    (h : decodeRegisters addr offset n rest = .ok req) :
    requestBody req = requestHeader addr 0x10#8 offset (word16 n) ++ rest ∧ admitted req = true := by
  unfold decodeRegisters at h
  split at h
  · rename_i hlen
    match rest, h, hlen with
    | bc :: values, h, hlen =>
      simp only at h
      split at h
      · rename_i hbc
        cases h
        obtain ⟨h1, h2⟩ := valueBytes_wordsOf n values (by simp at hlen; omega)
        have hlt := bc.isLt
        have hn : n ≤ 127 := by omega
        simp [requestBody, h1, h2, ofNat_toNat_eq hbc, admitted, Config.maxValues, hn]
      · cases h
  · split at h
    · rename_i hlen
      match rest, h, hlen with
      | hb :: lb :: values, h, hlen =>
        simp only at h
        split at h
        · rename_i hbc
          cases h
          obtain ⟨h1, h2⟩ := valueBytes_wordsOf n values (by simp at hlen; omega)
          have hlt := (ofBe16 hb lb).isLt
          have hn : n ≤ 32767 := by omega
          simp [requestBody, h1, h2, ← hbc, word16_toNat_eq, admitted, Config.maxVendorValues, hn]
        · cases h
    · cases h

/-- A body that decodes is the body of the admitted request it decodes to. -/
theorem requestBody_of_decodeBody {body : Bytes} {req : Req} (h : decodeBody body = .ok req) :
    requestBody req = body ∧ admitted req = true := by
  match body, h with
  | addr :: fc :: oh :: ol :: fh :: fl :: rest, h =>
    simp only [decodeBody] at h
    split at h
    · obtain ⟨rfl, h⟩ := decodeSix_ok h; cases h; simp [requestBody, requestHeader, admitted, *]
    split at h
    · obtain ⟨rfl, h⟩ := decodeSix_ok h; cases h; simp [requestBody, requestHeader, admitted, *]
    split at h
    · obtain ⟨rfl, h⟩ := decodeSix_ok h; cases h; simp [requestBody, requestHeader, admitted, *]
    split at h
    · obtain ⟨rfl, h⟩ := decodeSix_ok h; cases h; simp [requestBody, requestHeader, admitted, *]
    split at h
    · obtain ⟨rfl, h⟩ := decodeSix_ok h
      have hw := be16_ofBe16 fh fl
      split at h
      · cases h; rw [‹ofBe16 fh fl = coilValue true›] at hw; simp [requestBody, requestHeader, admitted, *]
      · split at h
        · cases h; rw [‹ofBe16 fh fl = coilValue false›] at hw; simp [requestBody, requestHeader, admitted, *]
        · cases h
    split at h
    · obtain ⟨rfl, h⟩ := decodeSix_ok h; cases h; simp [requestBody, requestHeader, admitted, *]
    split at h
    · simp [requestBody_of_decodeCoils h, requestHeader, word16_toNat_eq, *]
    split at h
    · simp [requestBody_of_decodeRegisters h, requestHeader, word16_toNat_eq, *]
    · cases h

/-! ### Replies -/

theorem known_ok {o : Option Instr} {i : Instr} (h : known o = .ok i) : o = some i := by
  cases o <;> simp_all [known]

theorem encode_of_readReplyInstr {fc addr bc crcA crcB : Byte} {data : Bytes} {i : Instr}
    (h : readReplyInstr fc addr bc data crcA crcB = some i) :
    encode i = some (readReplyFrame fc addr bc data crcA crcB) ∧ contextOf i = some (.reply fc) ∧
      i.wellFormed = decide (data.length ≤ maxReplyData) := by
  unfold readReplyInstr at h
  repeat' split at h
  all_goals first | (cases h; done) | (cases h; simp [encode, contextOf, Instr.wellFormed, *])

theorem encode_of_writeReplyInstr {fc addr crcA crcB : Byte} {e1 e2 : Word} {i : Instr}
    (h : writeReplyInstr fc addr e1 e2 crcA crcB = some i) :
    encode i = some (writeReplyFrame fc addr e1 e2 crcA crcB) ∧ contextOf i = some (.reply fc) ∧ i.wellFormed = true := by
  unfold writeReplyInstr at h
  repeat' split at h
  all_goals first | (cases h; done) | (cases h; simp [encode, contextOf, Instr.wellFormed, *])

theorem encode_of_exceptionInstr {fc addr code crcA crcB : Byte} {i : Instr}
    (h : exceptionInstr fc addr code crcA crcB = some i) :
    encode i = some (exceptionFrame fc addr code crcA crcB) ∧ contextOf i = some (.reply fc) ∧ i.wellFormed = true := by
  unfold exceptionInstr at h
  repeat' split at h
  all_goals first | (cases h; done) | (cases h; simp [encode, contextOf, Instr.wellFormed, *])

/-- A reply frame that decodes is the frame of the row it decodes to. -/
theorem encode_of_decodeReply {fc : Byte} {f : Bytes} {i : Instr} (h : decodeReply fc f = .ok i) :
    encode i = some f ∧ contextOf i = some (.reply fc) ∧ i.wellFormed = true := by
  match f, h with
  | [], h => cases h
  | [_], h => cases h
  | addr :: b1 :: rest, h =>
    simp only [decodeReply] at h
    split at h
    · match rest, h with
      | [code, crcA, crcB], h =>
        obtain ⟨h1, h2, h3⟩ := encode_of_exceptionInstr (known_ok h)
        exact ⟨by simp [exceptionFrame, *], h2, h3⟩
    · split at h
      · unfold decodeNormalReply at h
        split at h
        · match rest, h with
          | [], h => cases h
          | bc :: tail, h =>
            simp only at h
            split at h
            · cases h
            split at h
            · cases h
            rename_i hlen
            obtain ⟨h1, h2, h3⟩ := encode_of_readReplyInstr (known_ok h)
            refine ⟨?_, h2, ?_⟩
            · rw [h1, readReplyFrame]
              have := exists_body_append (f := tail) (by omega)
              simp only [List.cons_append, List.nil_append]
              rw [← this, ‹b1 = fc›]
            · rw [h3, List.length_take]
              exact decide_eq_true (by omega)
        · match rest, h with
          | [a, b, c, d, crcA, crcB], h =>
            obtain ⟨h1, h2, h3⟩ := encode_of_writeReplyInstr (known_ok h)
            exact ⟨by simp [writeReplyFrame, *], h2, h3⟩
      · cases h

end Sys2Proof
end

