-- ==== Sys2Proof/Laws/State.lean ====
section
/-! SUPPORT. One lemma per field per update of the state. -/

namespace Sys2Proof.Machine

@[simp] theorem record_phase (e : Event) (s : State) : (record e s).phase = s.phase := rfl
@[simp] theorem record_ctxOrder (e : Event) (s : State) : (record e s).ctxOrder = s.ctxOrder := rfl
@[simp] theorem record_ctxFc (e : Event) (s : State) : (record e s).ctxFc = s.ctxFc := rfl
@[simp] theorem record_ctxExplen (e : Event) (s : State) : (record e s).ctxExplen = s.ctxExplen := rfl
@[simp] theorem record_rxbuf (e : Event) (s : State) : (record e s).rxbuf = s.rxbuf := rfl
@[simp] theorem record_done (e : Event) (s : State) : (record e s).done = s.done := rfl
@[simp] theorem record_resStatus (e : Event) (s : State) : (record e s).resStatus = s.resStatus := rfl
@[simp] theorem record_resInfo (e : Event) (s : State) : (record e s).resInfo = s.resInfo := rfl
@[simp] theorem record_resCount (e : Event) (s : State) : (record e s).resCount = s.resCount := rfl
@[simp] theorem record_payload (e : Event) (s : State) : (record e s).payload = s.payload := rfl
@[simp] theorem record_port (e : Event) (s : State) : (record e s).port = s.port := rfl
@[simp] theorem record_tx (e : Event) (s : State) : (record e s).tx = s.tx := rfl
@[simp] theorem record_rx (e : Event) (s : State) : (record e s).rx = s.rx := rfl
@[simp] theorem record_turns (e : Event) (s : State) : (record e s).turns = s.turns := rfl
@[simp] theorem record_draws (e : Event) (s : State) : (record e s).draws = s.draws := rfl
@[simp] theorem record_trace (e : Event) (s : State) : (record e s).trace = s.trace ++ [e] := rfl

@[simp] theorem finish_phase (r : Result) (s : State) : (finish r s).phase = .idle := rfl
@[simp] theorem finish_ctxOrder (r : Result) (s : State) : (finish r s).ctxOrder = s.ctxOrder := rfl
@[simp] theorem finish_ctxFc (r : Result) (s : State) : (finish r s).ctxFc = s.ctxFc := rfl
@[simp] theorem finish_ctxExplen (r : Result) (s : State) : (finish r s).ctxExplen = s.ctxExplen := rfl
@[simp] theorem finish_rxbuf (r : Result) (s : State) : (finish r s).rxbuf = s.rxbuf := rfl
@[simp] theorem finish_done (r : Result) (s : State) : (finish r s).done = true := rfl
@[simp] theorem finish_resStatus (r : Result) (s : State) : (finish r s).resStatus = statusCode r.status := rfl
@[simp] theorem finish_resInfo (r : Result) (s : State) : (finish r s).resInfo = r.info := rfl
@[simp] theorem finish_resCount (r : Result) (s : State) : (finish r s).resCount = r.data.length := rfl
@[simp] theorem finish_payload (r : Result) (s : State) : (finish r s).payload = if r.status = .ok then memWrite s.payload 0 r.data else s.payload := rfl
@[simp] theorem finish_port (r : Result) (s : State) : (finish r s).port = s.port := rfl
@[simp] theorem finish_tx (r : Result) (s : State) : (finish r s).tx = s.tx := rfl
@[simp] theorem finish_rx (r : Result) (s : State) : (finish r s).rx = s.rx := rfl
@[simp] theorem finish_turns (r : Result) (s : State) : (finish r s).turns = s.turns := rfl
@[simp] theorem finish_draws (r : Result) (s : State) : (finish r s).draws = s.draws := rfl
@[simp] theorem finish_trace (r : Result) (s : State) : (finish r s).trace = s.trace := rfl

@[simp] theorem raise_phase (e : Status) (info : Byte) (s : State) : (raise e info s).phase = .idle := rfl
@[simp] theorem raise_ctxOrder (e : Status) (info : Byte) (s : State) : (raise e info s).ctxOrder = s.ctxOrder := rfl
@[simp] theorem raise_ctxFc (e : Status) (info : Byte) (s : State) : (raise e info s).ctxFc = s.ctxFc := rfl
@[simp] theorem raise_ctxExplen (e : Status) (info : Byte) (s : State) : (raise e info s).ctxExplen = s.ctxExplen := rfl
@[simp] theorem raise_rxbuf (e : Status) (info : Byte) (s : State) : (raise e info s).rxbuf = s.rxbuf := rfl
@[simp] theorem raise_done (e : Status) (info : Byte) (s : State) : (raise e info s).done = true := rfl
@[simp] theorem raise_resStatus (e : Status) (info : Byte) (s : State) : (raise e info s).resStatus = statusCode e := rfl
@[simp] theorem raise_resInfo (e : Status) (info : Byte) (s : State) : (raise e info s).resInfo = info := rfl
@[simp] theorem raise_resCount (e : Status) (info : Byte) (s : State) : (raise e info s).resCount = 0 := rfl
@[simp] theorem raise_payload (e : Status) (info : Byte) (s : State) : (raise e info s).payload = if e = .ok then memWrite s.payload 0 [] else s.payload := rfl
@[simp] theorem raise_port (e : Status) (info : Byte) (s : State) : (raise e info s).port = s.port := rfl
@[simp] theorem raise_tx (e : Status) (info : Byte) (s : State) : (raise e info s).tx = s.tx := rfl
@[simp] theorem raise_rx (e : Status) (info : Byte) (s : State) : (raise e info s).rx = s.rx := rfl
@[simp] theorem raise_turns (e : Status) (info : Byte) (s : State) : (raise e info s).turns = s.turns := rfl
@[simp] theorem raise_draws (e : Status) (info : Byte) (s : State) : (raise e info s).draws = s.draws := rfl
@[simp] theorem raise_trace (e : Status) (info : Byte) (s : State) : (raise e info s).trace = s.trace := rfl

@[simp] theorem enterAwaiting_phase (req : Req) (ord : ChecksumOrder) (s : State) : (enterAwaiting req ord s).phase = .awaitingResponse := rfl
@[simp] theorem enterAwaiting_ctxOrder (req : Req) (ord : ChecksumOrder) (s : State) : (enterAwaiting req ord s).ctxOrder = ord := rfl
@[simp] theorem enterAwaiting_ctxFc (req : Req) (ord : ChecksumOrder) (s : State) : (enterAwaiting req ord s).ctxFc = functionCode req := rfl
@[simp] theorem enterAwaiting_ctxExplen (req : Req) (ord : ChecksumOrder) (s : State) : (enterAwaiting req ord s).ctxExplen = expectedResponseLength req := rfl
@[simp] theorem enterAwaiting_rxbuf (req : Req) (ord : ChecksumOrder) (s : State) : (enterAwaiting req ord s).rxbuf = [] := rfl
@[simp] theorem enterAwaiting_done (req : Req) (ord : ChecksumOrder) (s : State) : (enterAwaiting req ord s).done = s.done := rfl
@[simp] theorem enterAwaiting_resStatus (req : Req) (ord : ChecksumOrder) (s : State) : (enterAwaiting req ord s).resStatus = s.resStatus := rfl
@[simp] theorem enterAwaiting_resInfo (req : Req) (ord : ChecksumOrder) (s : State) : (enterAwaiting req ord s).resInfo = s.resInfo := rfl
@[simp] theorem enterAwaiting_resCount (req : Req) (ord : ChecksumOrder) (s : State) : (enterAwaiting req ord s).resCount = s.resCount := rfl
@[simp] theorem enterAwaiting_payload (req : Req) (ord : ChecksumOrder) (s : State) : (enterAwaiting req ord s).payload = s.payload := rfl
@[simp] theorem enterAwaiting_port (req : Req) (ord : ChecksumOrder) (s : State) : (enterAwaiting req ord s).port = s.port := rfl
@[simp] theorem enterAwaiting_tx (req : Req) (ord : ChecksumOrder) (s : State) : (enterAwaiting req ord s).tx = s.tx := rfl
@[simp] theorem enterAwaiting_rx (req : Req) (ord : ChecksumOrder) (s : State) : (enterAwaiting req ord s).rx = s.rx := rfl
@[simp] theorem enterAwaiting_turns (req : Req) (ord : ChecksumOrder) (s : State) : (enterAwaiting req ord s).turns = s.turns := rfl
@[simp] theorem enterAwaiting_draws (req : Req) (ord : ChecksumOrder) (s : State) : (enterAwaiting req ord s).draws = s.draws := rfl
@[simp] theorem enterAwaiting_trace (req : Req) (ord : ChecksumOrder) (s : State) : (enterAwaiting req ord s).trace = s.trace := rfl

@[simp] theorem hold_phase (req : Req) (sel : Byte) (s : State) : (hold req sel s).phase = s.phase := rfl
@[simp] theorem hold_ctxOrder (req : Req) (sel : Byte) (s : State) : (hold req sel s).ctxOrder = s.ctxOrder := rfl
@[simp] theorem hold_ctxFc (req : Req) (sel : Byte) (s : State) : (hold req sel s).ctxFc = s.ctxFc := rfl
@[simp] theorem hold_ctxExplen (req : Req) (sel : Byte) (s : State) : (hold req sel s).ctxExplen = s.ctxExplen := rfl
@[simp] theorem hold_rxbuf (req : Req) (sel : Byte) (s : State) : (hold req sel s).rxbuf = s.rxbuf := rfl
@[simp] theorem hold_done (req : Req) (sel : Byte) (s : State) : (hold req sel s).done = s.done := rfl
@[simp] theorem hold_resStatus (req : Req) (sel : Byte) (s : State) : (hold req sel s).resStatus = s.resStatus := rfl
@[simp] theorem hold_resInfo (req : Req) (sel : Byte) (s : State) : (hold req sel s).resInfo = s.resInfo := rfl
@[simp] theorem hold_resCount (req : Req) (sel : Byte) (s : State) : (hold req sel s).resCount = s.resCount := rfl
@[simp] theorem hold_payload (req : Req) (sel : Byte) (s : State) : (hold req sel s).payload = s.payload := rfl
@[simp] theorem hold_port (req : Req) (sel : Byte) (s : State) : (hold req sel s).port = ⟨req, sel⟩ :: s.port := rfl
@[simp] theorem hold_tx (req : Req) (sel : Byte) (s : State) : (hold req sel s).tx = s.tx := rfl
@[simp] theorem hold_rx (req : Req) (sel : Byte) (s : State) : (hold req sel s).rx = s.rx := rfl
@[simp] theorem hold_turns (req : Req) (sel : Byte) (s : State) : (hold req sel s).turns = s.turns := rfl
@[simp] theorem hold_draws (req : Req) (sel : Byte) (s : State) : (hold req sel s).draws = s.draws := rfl
@[simp] theorem hold_trace (req : Req) (sel : Byte) (s : State) : (hold req sel s).trace = s.trace := rfl

@[simp] theorem resetBlock_phase (s : State) : (resetBlock s).phase = State.reset.phase := rfl
@[simp] theorem resetBlock_ctxOrder (s : State) : (resetBlock s).ctxOrder = State.reset.ctxOrder := rfl
@[simp] theorem resetBlock_ctxFc (s : State) : (resetBlock s).ctxFc = State.reset.ctxFc := rfl
@[simp] theorem resetBlock_ctxExplen (s : State) : (resetBlock s).ctxExplen = State.reset.ctxExplen := rfl
@[simp] theorem resetBlock_rxbuf (s : State) : (resetBlock s).rxbuf = State.reset.rxbuf := rfl
@[simp] theorem resetBlock_done (s : State) : (resetBlock s).done = State.reset.done := rfl
@[simp] theorem resetBlock_resStatus (s : State) : (resetBlock s).resStatus = State.reset.resStatus := rfl
@[simp] theorem resetBlock_resInfo (s : State) : (resetBlock s).resInfo = State.reset.resInfo := rfl
@[simp] theorem resetBlock_resCount (s : State) : (resetBlock s).resCount = State.reset.resCount := rfl
@[simp] theorem resetBlock_payload (s : State) : (resetBlock s).payload = State.reset.payload := rfl
@[simp] theorem resetBlock_port (s : State) : (resetBlock s).port = s.port := rfl
@[simp] theorem resetBlock_tx (s : State) : (resetBlock s).tx = s.tx := rfl
@[simp] theorem resetBlock_rx (s : State) : (resetBlock s).rx = s.rx := rfl
@[simp] theorem resetBlock_turns (s : State) : (resetBlock s).turns = s.turns := rfl
@[simp] theorem resetBlock_draws (s : State) : (resetBlock s).draws = s.draws := rfl
@[simp] theorem resetBlock_trace (s : State) : (resetBlock s).trace = s.trace := rfl

/-- What drawing a write outcome changes (R41): the list, or past its end the count of draws. -/
theorem txAdvance_eq (s : State) :
    txAdvance s = { s with tx := s.tx.tail, draws := if s.tx = [] then s.draws + 1 else s.draws } := by
  unfold txAdvance
  cases h : s.tx
  · simp
  · simp

@[simp] theorem txAdvance_phase (s : State) : (txAdvance s).phase = s.phase := by rw [txAdvance_eq]
@[simp] theorem txAdvance_ctxOrder (s : State) : (txAdvance s).ctxOrder = s.ctxOrder := by rw [txAdvance_eq]
@[simp] theorem txAdvance_ctxFc (s : State) : (txAdvance s).ctxFc = s.ctxFc := by rw [txAdvance_eq]
@[simp] theorem txAdvance_ctxExplen (s : State) : (txAdvance s).ctxExplen = s.ctxExplen := by rw [txAdvance_eq]
@[simp] theorem txAdvance_rxbuf (s : State) : (txAdvance s).rxbuf = s.rxbuf := by rw [txAdvance_eq]
@[simp] theorem txAdvance_done (s : State) : (txAdvance s).done = s.done := by rw [txAdvance_eq]
@[simp] theorem txAdvance_resStatus (s : State) : (txAdvance s).resStatus = s.resStatus := by rw [txAdvance_eq]
@[simp] theorem txAdvance_resInfo (s : State) : (txAdvance s).resInfo = s.resInfo := by rw [txAdvance_eq]
@[simp] theorem txAdvance_resCount (s : State) : (txAdvance s).resCount = s.resCount := by rw [txAdvance_eq]
@[simp] theorem txAdvance_payload (s : State) : (txAdvance s).payload = s.payload := by rw [txAdvance_eq]
@[simp] theorem txAdvance_port (s : State) : (txAdvance s).port = s.port := by rw [txAdvance_eq]
@[simp] theorem txAdvance_tx (s : State) : (txAdvance s).tx = s.tx.tail := by rw [txAdvance_eq]
@[simp] theorem txAdvance_rx (s : State) : (txAdvance s).rx = s.rx := by rw [txAdvance_eq]
@[simp] theorem txAdvance_turns (s : State) : (txAdvance s).turns = s.turns := by rw [txAdvance_eq]
@[simp] theorem txAdvance_draws (s : State) : (txAdvance s).draws = if s.tx = [] then s.draws + 1 else s.draws := by rw [txAdvance_eq]
@[simp] theorem txAdvance_trace (s : State) : (txAdvance s).trace = s.trace := by rw [txAdvance_eq]

theorem txOutcome_eq (s : State) : txOutcome s = s.tx.headD (Config.freeTxOutcome s.draws) := by
  unfold txOutcome
  cases s.tx <;> rfl

end Sys2Proof.Machine
end

