-- ==== Sys2Proof/Laws/Ops.lean ====
section
/-! SUPPORT. What each shared operation does, once: buffers, the parser, error entry, acceptance, completion, one read,
and that every meaning is one of two operations. -/

namespace Sys2Proof.Machine

/-! ### Buffers -/

/-- R52: writing at 0 sets the bytes written and leaves every other byte. -/
theorem getElem_memWrite (buf : Vector Byte 255) (bs : Bytes) (k : Nat) (h : k < 255) :
    (memWrite buf 0 bs)[k] = if k < bs.length then bs.getD k 0#8 else buf[k] := by
  simp only [memWrite, List.take_zero, List.nil_append, Nat.zero_add, Vector.getElem_mk, List.getElem_toArray,
    List.getElem_take]
  by_cases hk : k < bs.length
  · rw [List.getElem_append_left hk, if_pos hk, List.getD_eq_getElem _ _ hk]
  · rw [List.getElem_append_right (by omega), if_neg hk]
    simp [show bs.length + (k - bs.length) = k by omega]

@[simp] theorem memWrite_nil (buf : Vector Byte 255) : memWrite buf 0 [] = buf := by
  ext k h
  rw [getElem_memWrite, if_neg (by simp)]

/-! ### Results -/

theorem statusCode_le (e : Status) : (statusCode e).toNat ≤ 8 := by cases e <;> decide

@[simp] theorem statusCode_eq_zero (e : Status) : statusCode e = 0x0#4 ↔ e = .ok := by cases e <;> decide

/-- Error entry writes the registers of R215 and no payload (R214). -/
theorem raise_eq (e : Status) (info : Byte) (s : State) :
    raise e info s =
      { s with resStatus := statusCode e, resInfo := info, resCount := 0, phase := .idle, done := true } := by
  simp [raise, finish]

/-- R215: `PAYLOAD` changes only for a result OK with data. -/
theorem finish_payload_ne {r : Result} {s : State} (h : (finish r s).payload ≠ s.payload) :
    r.status = .ok ∧ r.data ≠ [] := by
  rw [finish_payload] at h
  split at h
  · exact ⟨‹_›, fun h0 => h (by rw [h0, memWrite_nil])⟩
  · exact absurd rfl h

/-- R32: bytes at `RES_COUNT` and above keep their content. -/
theorem finish_payload_above (r : Result) (s : State) (k : Nat) (hk : k < 255) (h : r.data.length ≤ k) :
    (finish r s).payload[k] = s.payload[k] := by
  simp only [finish_payload]
  split
  · rw [getElem_memWrite, if_neg (by omega)]
  · rfl

/-- The mapped codes (R172). -/
theorem exceptionKind_isSome : ∀ code : Byte, (exceptionKind code).isSome =
    decide (code ∈ [0x01#8, 0x02#8, 0x03#8, 0x04#8, 0x05#8, 0x06#8, 0x0A#8, 0x0B#8]) := by decide +kernel

/-- What the exception decoder gives (R172). -/
theorem decodeException_eq (code : Byte) : decodeException code =
    ⟨if (exceptionKind code).isSome then .slaveException else .unknownSlaveException, code, []⟩ := by
  unfold decodeException; split <;> simp [*]

theorem decodeException_data (code : Byte) : (decodeException code).data = [] := by
  rw [decodeException_eq]

theorem decodeException_not_ok (code : Byte) : (decodeException code).status ≠ .ok := by
  rw [decodeException_eq]; split <;> simp

/-- Only a read has payload, at most 255 bytes of it (R175). -/
theorem parse_data (raw : Bytes) (fc : Byte) :
    (parse raw fc).data.length ≤ 255 ∧ ((parse raw fc).data ≠ [] → isRead fc = true ∧ (parse raw fc).status = .ok) := by
  simp only [parse, parseRead]
  by_cases h1 : raw.getD 1 0#8 = fc
  · rw [if_pos h1]
    by_cases hr : isRead fc = true
    · rw [if_pos hr]
      have hlt := (raw.getD 2 0#8).isLt
      split
      · simp
      · refine ⟨?_, fun _ => ⟨hr, rfl⟩⟩
        simp only [memRead, List.length_take]
        omega
    · rw [if_neg hr]; simp
  · rw [if_neg h1]
    split
    · simp [decodeException_data]
    · simp

/-- R210: what a complete frame ends with. -/
def frameResult (buf : Bytes) (ord : ChecksumOrder) (fc : Byte) : Result :=
  if check buf ord then parse (buf.take (buf.length - 2)) fc else ⟨.checksumError, 0x00#8, []⟩

theorem completeFrame_eq (s : State) : completeFrame s = finish (frameResult s.rxbuf s.ctxOrder s.ctxFc) s := by
  unfold completeFrame frameResult
  split <;> rfl

/-- The result of a complete frame has at most 255 payload bytes, and payload only for a read that checks (R214). -/
theorem frameResult_data (buf : Bytes) (ord : ChecksumOrder) (fc : Byte) :
    (frameResult buf ord fc).data.length ≤ 255 ∧
      ((frameResult buf ord fc).data ≠ [] →
        check buf ord = true ∧ isRead fc = true ∧ (frameResult buf ord fc).status = .ok) := by
  unfold frameResult
  split
  · rename_i hc
    exact ⟨(parse_data _ _).1, fun h => ⟨hc, (parse_data _ _).2 h⟩⟩
  · simp

/-! ### Commands -/

/-- R200: the three ends of an acceptance step. -/
theorem accept_cases (req : Req) (sel : Byte) (s : State) :
    (selectedOrder sel = none ∧ accept req sel s = raise .configurationError 0x00#8 { s with done := false }) ∨
    (∃ ord, selectedOrder sel = some ord ∧ txOutcome s = .fail ∧ accept req sel s =
      raise .transportError 0x00#8 (txAdvance (record (.txWrite (serialize req ord)) { s with done := false }))) ∨
    (∃ ord, selectedOrder sel = some ord ∧ txOutcome s = .ok ∧ accept req sel s =
      enterAwaiting req ord (txAdvance (record (.txWrite (serialize req ord)) { s with done := false }))) := by
  unfold accept
  have ho : txOutcome { s with done := false } = txOutcome s := rfl
  cases h : selectedOrder sel with
  | none => exact .inl ⟨rfl, rfl⟩
  | some ord =>
    right
    simp only [writeFrame, ho]
    cases htx : txOutcome s with
    | fail => exact .inl ⟨ord, rfl, rfl, rfl⟩
    | ok => exact .inr ⟨ord, rfl, rfl, rfl⟩

/-- Every request row's meaning is `EXCHANGE` of its command (R91). -/
theorem exec_instrOf (c : Command) (s : State) : exec (instrOf c) s = exchange c.req c.sel s := by
  obtain ⟨req, sel⟩ := c
  cases req <;> rfl

theorem exchange_idle {req : Req} {sel : Byte} {s : State} (hadm : admitted req = true) (h : s.phase = .idle) :
    exchange req sel s = .next (accept req sel s) := by
  simp [exchange, hadm, h]

theorem exchange_busy {req : Req} {sel : Byte} {s : State} (hadm : admitted req = true)
    (h : s.phase = .awaitingResponse) : exchange req sel s = .next (hold req sel s) := by
  simp [exchange, hadm, h]

theorem functionCode_mem (req : Req) : functionCode req ∈ functionCodes := by
  cases req <;> simp [functionCode, functionCodes]

/-- R27: the range of `CTX_EXPLEN`. -/
theorem expectedResponseLength_bounds (req : Req) :
    5 ≤ expectedResponseLength req ∧ expectedResponseLength req ≤ 131075 := by
  cases req <;> simp only [expectedResponseLength, ceil8] <;> omega

/-! ### Replies -/

/-- Every reply row's meaning is the arrival of its frame. -/
theorem exec_reply {i : Instr} {fc : Byte} {f : Bytes} (hc : contextOf i = some (.reply fc)) (hf : encode i = some f)
    (s : State) : exec i s = acceptReply f s := by
  cases i <;> simp [contextOf] at hc <;> simp only [encode, Option.some.injEq] at hf <;> subst hf <;> rfl

/-- A row read in the context of a reply is no command. -/
theorem commandOf_reply {i : Instr} {fc : Byte} (hc : contextOf i = some (.reply fc)) : commandOf i = none := by
  cases i <;> simp [contextOf] at hc <;> rfl

theorem target_of_short {fc : Byte} {explen : Nat} {buf : Bytes} (h : buf.length < 5) : target fc explen buf = 5 := by
  simp [target, h]

theorem target_of_exception {fc : Byte} {explen : Nat} {buf : Bytes} (h : buf.getD 1 0#8 = (fc ||| 0x80#8)) :
    target fc explen buf = 5 := by
  simp only [target, Config.minResLen, h, if_true, ite_self]

theorem target_of_normal {fc : Byte} {explen : Nat} {buf : Bytes} (hl : 5 ≤ buf.length)
    (h : buf.getD 1 0#8 ≠ (fc ||| 0x80#8)) : target fc explen buf = explen := by
  simp only [target, Config.minResLen, if_neg h]
  rw [if_neg (by omega)]

/-- R205: `target(buf) >= 5` always, for an expected length of at least 5. -/
theorem five_le_target {fc : Byte} {explen : Nat} (buf : Bytes) (h : 5 ≤ explen) : 5 ≤ target fc explen buf := by
  simp only [target, Config.minResLen]; split <;> (try split) <;> omega

theorem target_le {fc : Byte} {explen : Nat} (buf : Bytes) (h : 5 ≤ explen) : target fc explen buf ≤ explen := by
  simp only [target, Config.minResLen]; split <;> (try split) <;> omega

/-- R207: below 5 bytes the block waits for 5; past that the target no longer depends on what is appended. -/
theorem target_append {fc : Byte} {explen : Nat} {buf : Bytes} (bs : Bytes) (h : 5 ≤ buf.length) :
    target fc explen (buf ++ bs) = target fc explen buf := by
  have hb : (buf ++ bs).getD 1 0#8 = buf.getD 1 0#8 := by
    rw [List.getD_append _ _ _ _ (by omega)]
  simp only [target, Config.minResLen, hb, List.length_append]
  rw [if_neg (show ¬ buf.length + bs.length < 5 by omega), if_neg (show ¬ buf.length < 5 by omega)]

/-- No read takes the buffer past its target (R206). -/
theorem le_target_append {fc : Byte} {explen : Nat} {buf bs : Bytes} (he : 5 ≤ explen)
    (hbelow : buf.length < target fc explen buf) (hbs : bs.length ≤ target fc explen buf - buf.length) :
    (buf ++ bs).length ≤ target fc explen (buf ++ bs) := by
  by_cases h : 5 ≤ buf.length
  · rw [target_append bs h, List.length_append]; omega
  · rw [target_of_short (by omega)] at hbelow hbs
    have := five_le_target (fc := fc) (buf ++ bs) he
    rw [List.length_append] at *; omega

theorem leaveInTransport_of_ne {bs : Bytes} (h : bs ≠ []) (rx : List RxOutcome) :
    leaveInTransport bs rx = .data bs :: rx := by
  cases bs
  · exact absurd rfl h
  · rfl

@[simp] theorem leaveInTransport_nil (rx : List RxOutcome) : leaveInTransport [] rx = rx := rfl

/-- A reply frame in AwaitingResponse, by where its length stands to its target. -/
theorem acceptReply_awaiting {f : Bytes} {s : State} (h : s.phase = .awaitingResponse) :
    acceptReply f s =
      if f.length < target s.ctxFc s.ctxExplen f then .next { s with rxbuf := f }
      else .next (completeFrame { s with
        rxbuf := f.take (target s.ctxFc s.ctxExplen f)
        rx := leaveInTransport (f.drop (target s.ctxFc s.ctxExplen f)) s.rx }) := by
  simp [acceptReply, h]

/-- A reply frame at its target is complete (R210). -/
theorem acceptReply_complete {f : Bytes} {s : State} (h : s.phase = .awaitingResponse)
    (ht : target s.ctxFc s.ctxExplen f = f.length) : acceptReply f s = .next (completeFrame { s with rxbuf := f }) := by
  rw [acceptReply_awaiting h, ht, if_neg (by omega)]
  simp

/-- R42: what a read of at least one byte answers. -/
theorem rxRead_cases (cap : Nat) (rx : List RxOutcome) (hcap : 1 ≤ cap) :
    (rx = [] ∧ rxRead cap rx = none) ∨
    ∃ o rx', rxRead cap rx = some (o, rx') ∧ rx.length ≤ rx'.length + 1 ∧
      (o = .zero ∨ o = .fail ∨ ∃ bs, o = .data bs ∧ 1 ≤ bs.length ∧ bs.length ≤ cap) := by
  unfold rxRead
  match rx with
  | [] => exact .inl ⟨rfl, rfl⟩
  | .data [] :: rest => exact .inr ⟨_, _, rfl, by simp, .inl rfl⟩
  | .data (b :: more) :: rest =>
    refine .inr ⟨_, _, rfl, ?_, .inr (.inr ⟨_, rfl, ?_, ?_⟩)⟩
    · unfold leaveInTransport; split <;> simp
    · rw [List.length_take, List.length_cons]; omega
    · rw [List.length_take]; omega
  | .zero :: rest => exact .inr ⟨_, _, rfl, by simp, .inl rfl⟩
  | .fail :: rest => exact .inr ⟨_, _, rfl, by simp, .inr (.inl rfl)⟩

/-- A read of bytes the transport holds. -/
theorem rxRead_data {cap : Nat} {bs : Bytes} (rest : List RxOutcome) (h : bs ≠ []) :
    rxRead cap (.data bs :: rest) = some (.data (bs.take cap), leaveInTransport (bs.drop cap) rest) := by
  cases bs
  · exact absurd rfl h
  · rfl

end Sys2Proof.Machine
end

