-- ==== Sys2Proof/Laws/PerInstr.lean ====
section
/-! SUPPORT. A statement per instruction: the frame of a well-formed instruction has at least the 5 bytes of an exception
reply (R80) and fits the bound of `RXBUF` (R51). -/

namespace Sys2Proof.Laws.FrameFits

open Sys2Proof Sys2Proof.Machine

/-- A frame of an instruction has 5 to 131075 bytes. -/
def Statement (i : Instr) : Prop :=
  i.wellFormed = true → ∀ f, encode i = some f → 5 ≤ f.length ∧ f.length ≤ 131075

theorem serialize_bounds (req : Req) (ord : ChecksumOrder) (h : admitted req = true) :
    5 ≤ (serialize req ord).length ∧ (serialize req ord).length ≤ 131075 := by
  cases req <;>
    simp only [admitted, decide_eq_true_eq, Config.maxCoils, Config.maxValues, Config.maxVendorValues] at h <;>
    simp [serialize, requestBody, requestHeader, ceil8] <;> omega

/-- A request's frame, for any selector that has one. -/
theorem of_request (req : Req) (sel : Byte) (h : admitted req = true) (f : Bytes)
    (hf : (selectedOrder sel).map (serialize req) = some f) : 5 ≤ f.length ∧ f.length ≤ 131075 := by
  obtain ⟨ord, -, rfl⟩ := Option.map_eq_some_iff.mp hf
  exact serialize_bounds req ord h

theorem of_readReply (fc addr bc : Byte) (data : Bytes) (crcA crcB : Byte) (h : decide (data.length ≤ maxReplyData) = true)
    (f : Bytes) (hf : some (readReplyFrame fc addr bc data crcA crcB) = some f) : 5 ≤ f.length ∧ f.length ≤ 131075 := by
  cases hf
  have h' : data.length ≤ 131070 := of_decide_eq_true h
  rw [readReplyFrame, List.length_append, List.length_append]
  exact ⟨by simp, by simp only [List.length_cons, List.length_nil]; omega⟩

theorem of_writeReply (fc addr : Byte) (e1 e2 : Word) (crcA crcB : Byte) (f : Bytes)
    (hf : some (writeReplyFrame fc addr e1 e2 crcA crcB) = some f) : 5 ≤ f.length ∧ f.length ≤ 131075 := by
  cases hf; simp [writeReplyFrame]

theorem of_exception (fc addr code crcA crcB : Byte) (f : Bytes)
    (hf : some (exceptionFrame fc addr code crcA crcB) = some f) : 5 ≤ f.length ∧ f.length ≤ 131075 := by
  cases hf; simp [exceptionFrame]

theorem readCoils (addr : Byte) (offset count : Word) (sel : Byte) : Statement (.readCoils addr offset count sel) :=
  fun _ => of_request (.readCoils addr offset count) sel rfl

theorem readInputs (addr : Byte) (offset count : Word) (sel : Byte) : Statement (.readInputs addr offset count sel) :=
  fun _ => of_request (.readInputs addr offset count) sel rfl

theorem readHoldingRegisters (addr : Byte) (offset count : Word) (sel : Byte) : Statement (.readHoldingRegisters addr offset count sel) :=
  fun _ => of_request (.readHoldingRegisters addr offset count) sel rfl

theorem readInputRegisters (addr : Byte) (offset count : Word) (sel : Byte) : Statement (.readInputRegisters addr offset count sel) :=
  fun _ => of_request (.readInputRegisters addr offset count) sel rfl

theorem writeSingleCoil (addr : Byte) (offset : Word) (on : Bool) (sel : Byte) :
    Statement (.writeSingleCoil addr offset on sel) :=
  fun _ => of_request (.writeSingleCoil addr offset on) sel rfl

theorem writeSingleRegister (addr : Byte) (offset value : Word) (sel : Byte) :
    Statement (.writeSingleRegister addr offset value sel) :=
  fun _ => of_request (.writeSingleRegister addr offset value) sel rfl

theorem writeMultiCoils (addr : Byte) (offset : Word) (items : List Bool) (sel : Byte) :
    Statement (.writeMultiCoils addr offset items sel) :=
  fun h => of_request (.writeMultiCoils addr offset items) sel h

theorem writeMultiRegisters (addr : Byte) (offset : Word) (items : List Word) (sel : Byte) :
    Statement (.writeMultiRegisters addr offset items sel) :=
  fun h => of_request (.writeMultiRegisters addr offset items) sel h

theorem writeMultiRegistersVendor (addr : Byte) (offset : Word) (items : List Word) (sel : Byte) :
    Statement (.writeMultiRegistersVendor addr offset items sel) :=
  fun h => of_request (.writeMultiRegistersVendor addr offset items) sel h

theorem replyNormal01 (addr bc : Byte) (data : List Byte) (crcA crcB : Byte) :
    Statement (.replyNormal01 addr bc data crcA crcB) :=
  fun h => of_readReply _ addr bc data crcA crcB h

theorem replyNormal02 (addr bc : Byte) (data : List Byte) (crcA crcB : Byte) :
    Statement (.replyNormal02 addr bc data crcA crcB) :=
  fun h => of_readReply _ addr bc data crcA crcB h

theorem replyNormal03 (addr bc : Byte) (data : List Byte) (crcA crcB : Byte) :
    Statement (.replyNormal03 addr bc data crcA crcB) :=
  fun h => of_readReply _ addr bc data crcA crcB h

theorem replyNormal04 (addr bc : Byte) (data : List Byte) (crcA crcB : Byte) :
    Statement (.replyNormal04 addr bc data crcA crcB) :=
  fun h => of_readReply _ addr bc data crcA crcB h

theorem replyNormal05 (addr : Byte) (echo1 echo2 : Word) (crcA crcB : Byte) :
    Statement (.replyNormal05 addr echo1 echo2 crcA crcB) :=
  fun _ => of_writeReply _ addr echo1 echo2 crcA crcB

theorem replyNormal06 (addr : Byte) (echo1 echo2 : Word) (crcA crcB : Byte) :
    Statement (.replyNormal06 addr echo1 echo2 crcA crcB) :=
  fun _ => of_writeReply _ addr echo1 echo2 crcA crcB

theorem replyNormal0F (addr : Byte) (echo1 echo2 : Word) (crcA crcB : Byte) :
    Statement (.replyNormal0F addr echo1 echo2 crcA crcB) :=
  fun _ => of_writeReply _ addr echo1 echo2 crcA crcB

theorem replyNormal10 (addr : Byte) (echo1 echo2 : Word) (crcA crcB : Byte) :
    Statement (.replyNormal10 addr echo1 echo2 crcA crcB) :=
  fun _ => of_writeReply _ addr echo1 echo2 crcA crcB

theorem replyException81 (addr code crcA crcB : Byte) : Statement (.replyException81 addr code crcA crcB) :=
  fun _ => of_exception _ addr code crcA crcB

theorem replyException82 (addr code crcA crcB : Byte) : Statement (.replyException82 addr code crcA crcB) :=
  fun _ => of_exception _ addr code crcA crcB

theorem replyException83 (addr code crcA crcB : Byte) : Statement (.replyException83 addr code crcA crcB) :=
  fun _ => of_exception _ addr code crcA crcB

theorem replyException84 (addr code crcA crcB : Byte) : Statement (.replyException84 addr code crcA crcB) :=
  fun _ => of_exception _ addr code crcA crcB

theorem replyException85 (addr code crcA crcB : Byte) : Statement (.replyException85 addr code crcA crcB) :=
  fun _ => of_exception _ addr code crcA crcB

theorem replyException86 (addr code crcA crcB : Byte) : Statement (.replyException86 addr code crcA crcB) :=
  fun _ => of_exception _ addr code crcA crcB

theorem replyException8F (addr code crcA crcB : Byte) : Statement (.replyException8F addr code crcA crcB) :=
  fun _ => of_exception _ addr code crcA crcB

theorem replyException90 (addr code crcA crcB : Byte) : Statement (.replyException90 addr code crcA crcB) :=
  fun _ => of_exception _ addr code crcA crcB

end Sys2Proof.Laws.FrameFits
end

