-- ==== Sys2Proof/Laws/Step.lean ====
section
/-! SUPPORT. What one step can do: the block's turn in each phase, a host move. -/

namespace Sys2Proof.Machine

/-- Whose turn it is. -/
theorem step_cases (s : State) :
    (s.turns = [] ∧ step s = blockStep s) ∨
    (∃ ts, s.turns = .block :: ts ∧ step s = blockStep { s with turns := ts }) ∨
    ∃ m ts, s.turns = .host m :: ts ∧ step s = hostMove m { s with turns := ts } := by
  unfold step
  match h : s.turns with
  | [] => exact .inl ⟨rfl, rfl⟩
  | .block :: ts => exact .inr (.inl ⟨ts, rfl, rfl⟩)
  | .host m :: ts => exact .inr (.inr ⟨m, ts, rfl, rfl⟩)

/-- The block's turn, with the turn used. -/
theorem step_block {s : State} (h : ∀ m, s.turns.head? ≠ some (.host m)) :
    step s = blockStep { s with turns := s.turns.tail } := by
  rcases step_cases s with ⟨ht, hs⟩ | ⟨ts, ht, hs⟩ | ⟨m, ts, ht, hs⟩
  · rw [hs]; congr 1; cases s; simp_all
  · simp [hs, ht]
  · exact absurd (by simp [ht]) (h m)

/-- The next state of a host move, with what lets it have one. -/
theorem hostMove_next {m : HostMove} {s t : State} (h : hostMove m s = .next t) :
    (m = .reset ∧ t = resetBlock s) ∨
    ((m = .openTransport ∨ (m = .closeTransport ∧ s.phase = .idle)) ∧ t = s) ∨
    ∃ a, ((∃ q, m = .query q ∧ answerQuery q = .ok a) ∨ ∃ p, m = .read p ∧ readPort p s = .ok a) ∧
      t = record (.answered a) s := by
  cases m with
  | reset => cases h; exact .inl ⟨rfl, rfl⟩
  | openTransport => cases h; exact .inr (.inl ⟨.inl rfl, rfl⟩)
  | closeTransport =>
    simp only [hostMove] at h
    split at h
    · cases h
    · cases h
      cases hp : s.phase with
      | idle => exact .inr (.inl ⟨.inr ⟨rfl, rfl⟩, rfl⟩)
      | awaitingResponse => simp_all [busy]
  | query q =>
    simp only [hostMove] at h
    split at h
    · rename_i a ha; cases h; exact .inr (.inr ⟨a, .inl ⟨q, rfl, ha⟩, rfl⟩)
    · cases h
  | read p =>
    simp only [hostMove] at h
    split at h
    · rename_i a ha; cases h; exact .inr (.inr ⟨a, .inr ⟨p, rfl, ha⟩, rfl⟩)
    · cases h

theorem fetch_awaiting {s : State} (hp : s.phase = .awaitingResponse) : fetch s = readStep s := by
  unfold fetch
  split
  · simp_all
  · rfl

theorem fetch_idle {s : State} (hp : s.phase = .idle) :
    fetch s = match s.port with
      | [] => .settled s
      | c :: cs => .run (instrOf c) { s with port := cs } := by
  unfold fetch
  split
  · rfl
  · simp_all

/-- An idle block takes the command at the port (R22, R37). -/
theorem blockStep_idle {s t : State} (hp : s.phase = .idle) (h : blockStep s = .next t) :
    (s.port = [] ∧ t = s) ∨
    ∃ c cs, s.port = c :: cs ∧ admitted c.req = true ∧ t = accept c.req c.sel { s with port := cs } := by
  rw [blockStep, fetch_idle hp] at h
  match hport : s.port with
  | [] => rw [hport] at h; cases h; exact .inl ⟨rfl, rfl⟩
  | c :: cs =>
    rw [hport] at h
    simp only [outcomeOf, exec_instrOf] at h
    cases hadm : admitted c.req with
    | false => simp [exchange, hadm] at h
    | true =>
      rw [exchange_idle (s := { s with port := cs }) hadm hp] at h
      cases h
      exact .inr ⟨c, cs, rfl, hadm, rfl⟩

/-- A chunk that leaves the buffer short (R207). -/
theorem rxAppend_short {bs : Bytes} {s : State}
    (h : (s.rxbuf ++ bs).length < target s.ctxFc s.ctxExplen (s.rxbuf ++ bs)) :
    rxAppend bs s = .settled { s with rxbuf := s.rxbuf ++ bs } := by
  simp only [rxAppend, if_pos h]

/-- A complete buffer that is a reply row is that instruction. -/
theorem rxAppend_run {bs : Bytes} {s : State} {i : Instr}
    (h : ¬ (s.rxbuf ++ bs).length < target s.ctxFc s.ctxExplen (s.rxbuf ++ bs))
    (hd : decode (.reply s.ctxFc) (s.rxbuf ++ bs) = .ok i) :
    rxAppend bs s = .run i { s with rxbuf := s.rxbuf ++ bs } := by
  simp only [rxAppend, if_neg h, hd]

/-- The block's turn on bytes the transport holds (R206). -/
theorem blockStep_data {s : State} {bs : Bytes} {rest : List RxOutcome} (hp : s.phase = .awaitingResponse)
    (hrx : s.rx = .data bs :: rest) (hbs : bs ≠ []) :
    blockStep s = outcomeOf (rxAppend (bs.take (readCap s)) (record (.rxRead (readCap s))
        { s with rx := leaveInTransport (bs.drop (readCap s)) rest })) := by
  rw [blockStep, fetch_awaiting hp, readStep, hrx, rxRead_data rest hbs]

/-- A complete buffer is validated and decoded (R210), be it a row of the opcode table or not; `rx'` is `s.rx` but for
bytes past the target. -/
theorem rxAppend_complete {bs : Bytes} {s : State} (hp : s.phase = .awaitingResponse)
    (ht : target s.ctxFc s.ctxExplen (s.rxbuf ++ bs) = (s.rxbuf ++ bs).length) :
    outcomeOf (rxAppend bs s) = .next (completeFrame { s with rxbuf := s.rxbuf ++ bs }) := by
  simp only [rxAppend]
  rw [if_neg (by omega)]
  cases hd : decode (.reply s.ctxFc) (s.rxbuf ++ bs) with
  | error e => rfl
  | ok i =>
    obtain ⟨he, hc, -⟩ := encode_of_decodeReply hd
    simp only [outcomeOf]
    rw [exec_reply hc he]
    exact acceptReply_complete (s := { s with rxbuf := s.rxbuf ++ bs }) hp ht

/-- What an append comes to, in any state. -/
theorem rxAppend_cases (bs : Bytes) {s : State} (hp : s.phase = .awaitingResponse) :
    ((s.rxbuf ++ bs).length < target s.ctxFc s.ctxExplen (s.rxbuf ++ bs) ∧
      rxAppend bs s = .settled { s with rxbuf := s.rxbuf ++ bs }) ∨
    ∃ buf rx, outcomeOf (rxAppend bs s) = .next (completeFrame { s with rxbuf := buf, rx := rx }) := by
  by_cases hlt : (s.rxbuf ++ bs).length < target s.ctxFc s.ctxExplen (s.rxbuf ++ bs)
  · exact .inl ⟨hlt, by simp only [rxAppend, if_pos hlt]⟩
  · right
    simp only [rxAppend, if_neg hlt]
    cases hd : decode (.reply s.ctxFc) (s.rxbuf ++ bs) with
    | error e => exact ⟨_, s.rx, rfl⟩
    | ok i =>
      obtain ⟨he, hc, -⟩ := encode_of_decodeReply hd
      simp only [outcomeOf]
      rw [exec_reply hc he, acceptReply_awaiting (s := { s with rxbuf := s.rxbuf ++ bs }) hp, if_neg hlt]
      exact ⟨_, _, rfl⟩

/-- The block's turn in AwaitingResponse (R206 to R210): it always has a next state. -/
theorem blockStep_awaiting {s : State} (hp : s.phase = .awaitingResponse) :
    (s.rx = [] ∧ blockStep s = .next s) ∨
    s.rx ≠ [] ∧ ∃ rx,
      let s1 := record (.rxRead (readCap s)) { s with rx := rx }
      blockStep s = .next (raise .timeoutError 0x00#8 s1) ∨ blockStep s = .next (raise .transportError 0x00#8 s1) ∨
      (∃ bs, (s.rxbuf ++ bs).length < target s.ctxFc s.ctxExplen (s.rxbuf ++ bs) ∧
        blockStep s = .next { s1 with rxbuf := s.rxbuf ++ bs }) ∨
      ∃ buf, blockStep s = .next (completeFrame { s1 with rxbuf := buf }) := by
  rw [blockStep, fetch_awaiting hp, readStep]
  rcases hrx : rxRead (readCap s) s.rx with _ | ⟨o, rx⟩
  · refine .inl ⟨?_, rfl⟩
    match hl : s.rx with
    | [] => rfl
    | .data [] :: _ => simp [hl, rxRead] at hrx
    | .data (_ :: _) :: _ => simp [hl, rxRead] at hrx
    | .zero :: _ => simp [hl, rxRead] at hrx
    | .fail :: _ => simp [hl, rxRead] at hrx
  · refine .inr ⟨fun hn => by simp [hn, rxRead] at hrx, ?_⟩
    cases o with
    | zero => exact ⟨rx, .inl rfl⟩
    | fail => exact ⟨rx, .inr (.inl rfl)⟩
    | data bs =>
      simp only
      rcases rxAppend_cases bs (s := record (.rxRead (readCap s)) { s with rx := rx }) hp with ⟨hlt, he⟩ | ⟨buf, rx', he⟩
      · exact ⟨rx, .inr (.inr (.inl ⟨bs, hlt, by rw [he]; rfl⟩))⟩
      · exact ⟨rx', .inr (.inr (.inr ⟨buf, he⟩))⟩

/-- The block's turn in AwaitingResponse with the buffer below its target (R45): the cap is at least 1, and the buffer
either stays below its target or meets it (R206, R207). -/
theorem blockStep_below {s : State} (hp : s.phase = .awaitingResponse) (he : 5 ≤ s.ctxExplen)
    (hbelow : s.rxbuf.length < target s.ctxFc s.ctxExplen s.rxbuf) :
    (s.rx = [] ∧ blockStep s = .next s) ∨
    ∃ rx, s.rx.length ≤ rx.length + 1 ∧
      let s1 := record (.rxRead (readCap s)) { s with rx := rx }
      blockStep s = .next (raise .timeoutError 0x00#8 s1) ∨ blockStep s = .next (raise .transportError 0x00#8 s1) ∨
      ∃ bs, 1 ≤ bs.length ∧
        (((s.rxbuf ++ bs).length < target s.ctxFc s.ctxExplen (s.rxbuf ++ bs) ∧
            blockStep s = .next { s1 with rxbuf := s.rxbuf ++ bs }) ∨
          ((s.rxbuf ++ bs).length = target s.ctxFc s.ctxExplen (s.rxbuf ++ bs) ∧
            blockStep s = .next (completeFrame { s1 with rxbuf := s.rxbuf ++ bs }))) := by
  have hcap : 1 ≤ readCap s := by simp only [readCap]; omega
  rcases rxRead_cases (readCap s) s.rx hcap with ⟨hrx, hn⟩ | ⟨o, rx, hn, hlen, hcase⟩
  · exact .inl ⟨hrx, by rw [blockStep, fetch_awaiting hp, readStep, hn]; rfl⟩
  · refine .inr ⟨rx, hlen, ?_⟩
    rw [blockStep, fetch_awaiting hp, readStep, hn]
    rcases hcase with rfl | rfl | ⟨bs, rfl, h1, h2⟩
    · exact .inl rfl
    · exact .inr (.inl rfl)
    · refine .inr (.inr ⟨bs, h1, ?_⟩)
      rcases Nat.lt_or_eq_of_le (le_target_append he hbelow h2) with hlt | heq
      · refine .inl ⟨hlt, ?_⟩
        have := rxAppend_short (s := record (.rxRead (readCap s)) { s with rx := rx }) hlt
        exact congrArg outcomeOf this
      · exact .inr ⟨heq, rxAppend_complete (s := record (.rxRead (readCap s)) { s with rx := rx }) hp heq.symm⟩

/-- The state after a read returned, its turn used. -/
def readDone (rx : List RxOutcome) (s : State) : State :=
  record (.rxRead (readCap s)) { s with turns := s.turns.tail, rx := rx }

/-- The block moves: no host move stands first among the turns. -/
abbrev blockMoves (s : State) : Prop := ∀ m, s.turns.head? ≠ some (.host m)

/-- Everything a step other than RESET can come to, guards included. -/
inductive StepTo (s : State) : State → Prop where
  /-- The block's turn with nothing to do: no command, or no answer of the transport (R262, R281). -/
  | waited (turn : blockMoves s) (nothing : (s.phase = .idle ∧ s.port = []) ∨ (s.phase = .awaitingResponse ∧ s.rx = [])) :
      StepTo s { s with turns := s.turns.tail }
  /-- The host opens the transport, or closes it in Idle (R43). -/
  | transport (move : s.turns.head? = some (.host .openTransport) ∨
      (s.turns.head? = some (.host .closeTransport) ∧ s.phase = .idle)) : StepTo s { s with turns := s.turns.tail }
  /-- A query or a read of a result port. -/
  | answered (a : Answer) (move : (∃ q, s.turns.head? = some (.host (.query q)) ∧ answerQuery q = .ok a) ∨
      ∃ p, s.turns.head? = some (.host (.read p)) ∧ readPort p s = .ok a) :
      StepTo s (record (.answered a) { s with turns := s.turns.tail })
  /-- An idle block accepts the command at the port (R200). -/
  | accepted (turn : blockMoves s) (c : Command) (cs : List Command) (idle : s.phase = .idle) (port : s.port = c :: cs)
      (adm : admitted c.req = true) : StepTo s (accept c.req c.sel { s with turns := s.turns.tail, port := cs })
  /-- A zero-byte read (R208). -/
  | timeout (turn : blockMoves s) (rx : List RxOutcome) (awaiting : s.phase = .awaitingResponse) (answer : s.rx ≠ []) :
      StepTo s (raise .timeoutError 0x00#8 (readDone rx s))
  /-- A failed read (R209). -/
  | readFailed (turn : blockMoves s) (rx : List RxOutcome) (awaiting : s.phase = .awaitingResponse)
      (answer : s.rx ≠ []) : StepTo s (raise .transportError 0x00#8 (readDone rx s))
  /-- A read that leaves the buffer short (R207). -/
  | grew (turn : blockMoves s) (rx : List RxOutcome) (buf : Bytes) (awaiting : s.phase = .awaitingResponse)
      (answer : s.rx ≠ []) (short : buf.length < target s.ctxFc s.ctxExplen buf) :
      StepTo s { readDone rx s with rxbuf := buf }
  /-- A read that completes the frame (R210). -/
  | completed (turn : blockMoves s) (rx : List RxOutcome) (buf : Bytes) (awaiting : s.phase = .awaitingResponse)
      (answer : s.rx ≠ []) : StepTo s (completeFrame { readDone rx s with rxbuf := buf })

theorem blockStep_to {s t : State} (turn : blockMoves s) (h : blockStep { s with turns := s.turns.tail } = .next t) :
    StepTo s t := by
  cases hp : s.phase with
  | idle =>
    rcases blockStep_idle (s := { s with turns := s.turns.tail }) hp h with ⟨hport, rfl⟩ | ⟨c, cs, hport, hadm, rfl⟩
    · exact .waited turn (.inl ⟨hp, hport⟩)
    · exact .accepted turn c cs hp hport hadm
  | awaitingResponse =>
    rcases blockStep_awaiting (s := { s with turns := s.turns.tail }) hp with
        ⟨hrx, he⟩ | ⟨hrx, rx, he | he | ⟨bs, hlt, he⟩ | ⟨buf, he⟩⟩ <;>
      rw [he] at h <;> cases h
    · exact .waited turn (.inr ⟨hp, hrx⟩)
    · exact .timeout turn rx hp hrx
    · exact .readFailed turn rx hp hrx
    · exact .grew turn rx _ hp hrx hlt
    · exact .completed turn rx buf hp hrx

/-- What a step can do: RESET, or one of `StepTo`. -/
theorem step_next {s t : State} (h : step s = .next t) :
    (s.turns.head? = some (.host .reset) ∧ t = resetBlock { s with turns := s.turns.tail }) ∨ StepTo s t := by
  by_cases turn : blockMoves s
  · rw [step_block turn] at h; exact .inr (blockStep_to turn h)
  · rcases step_cases s with ⟨ht, -⟩ | ⟨ts, ht, -⟩ | ⟨m, ts, ht, he⟩
    · exact absurd (fun m => by simp [ht]) turn
    · exact absurd (fun m => by simp [ht]) turn
    · have hm : s.turns.head? = some (.host m) := by simp [ht]
      obtain rfl : s.turns.tail = ts := by simp [ht]
      rw [he] at h
      rcases hostMove_next h with ⟨rfl, rfl⟩ | ⟨hm', rfl⟩ | ⟨a, hq, rfl⟩
      · exact .inl ⟨hm, rfl⟩
      · refine .inr (.transport ?_)
        rcases hm' with rfl | ⟨rfl, hp⟩
        · exact .inl hm
        · exact .inr ⟨hm, hp⟩
      · refine .inr (.answered a ?_)
        rcases hq with ⟨q, rfl, hq⟩ | ⟨p, rfl, hq⟩
        · exact .inl ⟨q, hm, hq⟩
        · exact .inr ⟨p, hm, by cases p <;> exact hq⟩

end Sys2Proof.Machine
end

