-- ==== Sys2Proof/Tests/Slice0.lean ====
section
/-! SUPPORT. Tests. Expected values are the spec's own: the examples of spec/opcode_table.json, the vectors S<n>, V<n>
and programs P<n> of spec/95_test_vectors.md, the listing of R101. At the end, for every obligation with hypotheses, a
state and operands that meet them together (`witness_<Obligation>`). -/

namespace Sys2Proof.Tests

-- One theorem at a time: side by side they hold dozens of threads, each with a stack of its own.
set_option Elab.async false

open Sys2Proof Sys2Proof.Machine Sys2Proof.Claims

/-! ### Small states and views -/

/-- An idle block with one command at the port and the coming write outcomes. -/
def offered (req : Req) (sel : Byte) (tx : List TxOutcome) : State := { State.reset with port := [⟨req, sel⟩], tx := tx }

/-- A block that awaits a reply. -/
def waiting (ord : ChecksumOrder) (fc : Byte) (explen : Nat) (rxbuf : Bytes) (rx : List RxOutcome) : State :=
  { State.reset with phase := .awaitingResponse, ctxOrder := ord, ctxFc := fc, ctxExplen := explen, rxbuf := rxbuf, rx := rx }

/-- The next state, if there is one. -/
def nextOf : Host.Outcome State Fault Refusal → Option State
  | .next t => some t
  | _ => none

/-- The result of an outcome that ends an exchange: status, info, count. -/
def resultOf (o : Host.Outcome State Fault Refusal) : Option (BitVec 4 × Byte × Nat) :=
  match o with
  | .next t => if t.phase = .idle ∧ t.done = true then some (t.resStatus, t.resInfo, t.resCount) else none
  | _ => none

/-- The first `n` payload bytes of a next state. -/
def payloadOf (n : Nat) (o : Host.Outcome State Fault Refusal) : Option Bytes := (nextOf o).map fun t => t.payload.toList.take n

/-- The context of a next state that awaits a reply, and the last event. -/
def contextAfter (o : Host.Outcome State Fault Refusal) : Option (ChecksumOrder × Byte × Nat × Option Event) :=
  match o with
  | .next t => if t.phase = .awaitingResponse ∧ t.done = false ∧ t.rxbuf = [] then
      some (t.ctxOrder, t.ctxFc, t.ctxExplen, t.trace.getLast?) else none
  | _ => none

/-! ### Well-formedness refuses ill-formed terms -/

theorem test_wf_coils :
    (Instr.writeMultiCoils 0x01 0 (List.replicate 2040 true) 0x00).wellFormed = true ∧
    (Instr.writeMultiCoils 0x01 0 (List.replicate 2041 true) 0x00).wellFormed = false := by
  simp only [Instr.wellFormed, admitted, List.length_replicate]; decide

theorem test_wf_values :
    (Instr.writeMultiRegisters 0x01 0 (List.replicate 127 0) 0x00).wellFormed = true ∧
    (Instr.writeMultiRegisters 0x01 0 (List.replicate 128 0) 0x00).wellFormed = false := by
  simp only [Instr.wellFormed, admitted, List.length_replicate]; decide

theorem test_wf_vendor_values :
    (Instr.writeMultiRegistersVendor 0x01 0 (List.replicate 32767 0) 0x00).wellFormed = true ∧
    (Instr.writeMultiRegistersVendor 0x01 0 (List.replicate 32768 0) 0x00).wellFormed = false := by
  simp only [Instr.wellFormed, admitted, List.length_replicate]; decide

/-- The four read replies, at the longest frame `RXBUF` holds and one byte past it. -/
theorem test_wf_reply_data (n : Nat) :
    (Instr.replyNormal01 0x01 0 (List.replicate n 0) 0 0).wellFormed = decide (n ≤ 131070) ∧
    (Instr.replyNormal02 0x01 0 (List.replicate n 0) 0 0).wellFormed = decide (n ≤ 131070) ∧
    (Instr.replyNormal03 0x01 0 (List.replicate n 0) 0 0).wellFormed = decide (n ≤ 131070) ∧
    (Instr.replyNormal04 0x01 0 (List.replicate n 0) 0 0).wellFormed = decide (n ≤ 131070) := by
  simp only [Instr.wellFormed, List.length_replicate, maxReplyData, Config.maxExpLen, Nat.reduceSub, and_self]

theorem test_wf_reply_too_long : (Instr.replyNormal01 0x01 0 (List.replicate 131071 0) 0 0).wellFormed = false :=
  (test_wf_reply_data 131071).1

/-! ### The Checksum Engine -/

/-- R101: the whole table. -/
theorem test_crc_table : (List.range 256).map (fun b => (crcTable (BitVec.ofNat 8 b)).toNat) =
    [0x0000, 0xC0C1, 0xC181, 0x0140, 0xC301, 0x03C0, 0x0280, 0xC241, 0xC601, 0x06C0, 0x0780, 0xC741, 0x0500, 0xC5C1, 0xC481, 0x0440] ++
    [0xCC01, 0x0CC0, 0x0D80, 0xCD41, 0x0F00, 0xCFC1, 0xCE81, 0x0E40, 0x0A00, 0xCAC1, 0xCB81, 0x0B40, 0xC901, 0x09C0, 0x0880, 0xC841] ++
    [0xD801, 0x18C0, 0x1980, 0xD941, 0x1B00, 0xDBC1, 0xDA81, 0x1A40, 0x1E00, 0xDEC1, 0xDF81, 0x1F40, 0xDD01, 0x1DC0, 0x1C80, 0xDC41] ++
    [0x1400, 0xD4C1, 0xD581, 0x1540, 0xD701, 0x17C0, 0x1680, 0xD641, 0xD201, 0x12C0, 0x1380, 0xD341, 0x1100, 0xD1C1, 0xD081, 0x1040] ++
    [0xF001, 0x30C0, 0x3180, 0xF141, 0x3300, 0xF3C1, 0xF281, 0x3240, 0x3600, 0xF6C1, 0xF781, 0x3740, 0xF501, 0x35C0, 0x3480, 0xF441] ++
    [0x3C00, 0xFCC1, 0xFD81, 0x3D40, 0xFF01, 0x3FC0, 0x3E80, 0xFE41, 0xFA01, 0x3AC0, 0x3B80, 0xFB41, 0x3900, 0xF9C1, 0xF881, 0x3840] ++
    [0x2800, 0xE8C1, 0xE981, 0x2940, 0xEB01, 0x2BC0, 0x2A80, 0xEA41, 0xEE01, 0x2EC0, 0x2F80, 0xEF41, 0x2D00, 0xEDC1, 0xEC81, 0x2C40] ++
    [0xE401, 0x24C0, 0x2580, 0xE541, 0x2700, 0xE7C1, 0xE681, 0x2640, 0x2200, 0xE2C1, 0xE381, 0x2340, 0xE101, 0x21C0, 0x2080, 0xE041] ++
    [0xA001, 0x60C0, 0x6180, 0xA141, 0x6300, 0xA3C1, 0xA281, 0x6240, 0x6600, 0xA6C1, 0xA781, 0x6740, 0xA501, 0x65C0, 0x6480, 0xA441] ++
    [0x6C00, 0xACC1, 0xAD81, 0x6D40, 0xAF01, 0x6FC0, 0x6E80, 0xAE41, 0xAA01, 0x6AC0, 0x6B80, 0xAB41, 0x6900, 0xA9C1, 0xA881, 0x6840] ++
    [0x7800, 0xB8C1, 0xB981, 0x7940, 0xBB01, 0x7BC0, 0x7A80, 0xBA41, 0xBE01, 0x7EC0, 0x7F80, 0xBF41, 0x7D00, 0xBDC1, 0xBC81, 0x7C40] ++
    [0xB401, 0x74C0, 0x7580, 0xB541, 0x7700, 0xB7C1, 0xB681, 0x7640, 0x7200, 0xB2C1, 0xB381, 0x7340, 0xB101, 0x71C0, 0x7080, 0xB041] ++
    [0x5000, 0x90C1, 0x9181, 0x5140, 0x9301, 0x53C0, 0x5280, 0x9241, 0x9601, 0x56C0, 0x5780, 0x9741, 0x5500, 0x95C1, 0x9481, 0x5440] ++
    [0x9C01, 0x5CC0, 0x5D80, 0x9D41, 0x5F00, 0x9FC1, 0x9E81, 0x5E40, 0x5A00, 0x9AC1, 0x9B81, 0x5B40, 0x9901, 0x59C0, 0x5880, 0x9841] ++
    [0x8801, 0x48C0, 0x4980, 0x8941, 0x4B00, 0x8BC1, 0x8A81, 0x4A40, 0x4E00, 0x8EC1, 0x8F81, 0x4F40, 0x8D01, 0x4DC0, 0x4C80, 0x8C41] ++
    [0x4400, 0x84C1, 0x8581, 0x4540, 0x8701, 0x47C0, 0x4680, 0x8641, 0x8201, 0x42C0, 0x4380, 0x8341, 0x4100, 0x81C1, 0x8081, 0x4040] := by
  decide +kernel

/-- S1, V1, V2, V3, V5. -/
theorem test_crc16 :
    [[0x01, 0x03, 0x00, 0x00, 0x00, 0x01], [], [0x00], [0xFF], [0x01], [0x01, 0x03, 0x00, 0x00, 0x00, 0x02],
      [0x11, 0x03, 0x00, 0x6B, 0x00, 0x03], [0x01, 0x83, 0x02],
      [0x31, 0x32, 0x33, 0x34, 0x35, 0x36, 0x37, 0x38, 0x39]].map crc16 =
    [0x0A84#16, 0xFFFF#16, 0x40BF#16, 0x00FF#16, 0x807E#16, 0x0BC4#16, 0x8776#16, 0xF1C0#16, 0x4B37#16] := by decide +kernel

/-- V6. -/
theorem test_place : place 0x0BC4 .lowFirst = [0xC4, 0x0B] ∧ place 0x0BC4 .highFirst = [0x0B, 0xC4] ∧
    unplace 0xC4 0x0B .lowFirst = 0x0BC4 ∧ unplace 0xC4 0x0B .highFirst = 0xC40B := by decide

/-- V7. -/
theorem test_check :
    check [0x01, 0x03, 0x04, 0x00, 0x06, 0x00, 0x05, 0xDA, 0x31] .lowFirst = true ∧
    check [0x01, 0x03, 0x04, 0x00, 0x06, 0x00, 0x05, 0xDA, 0x31] .highFirst = false ∧
    check [0x01, 0x03, 0x04, 0x00, 0x06, 0x00, 0x05, 0x31, 0xDA] .highFirst = true ∧
    check [0x01, 0x06, 0x00, 0x01, 0x00, 0x39, 0x18, 0x18] .lowFirst = true ∧
    check [0x01, 0x06, 0x00, 0x01, 0x00, 0x39, 0x18, 0x18] .highFirst = true ∧
    check [0xFF, 0xFF] .lowFirst = true ∧ check [0xFF, 0xFF] .highFirst = true := by decide +kernel

/-! ### Decoding, one word per row: the examples of spec/opcode_table.json -/

theorem test_decode_readCoils : decode (.request .lowFirst) [0x01, 0x01, 0x00, 0x13, 0x00, 0x25, 0x0C, 0x14] =
    .ok (.readCoils 0x01 0x0013 37 0x00) := by rfl

theorem test_decode_readInputs : decode (.request .lowFirst) [0x01, 0x02, 0x00, 0xC4, 0x00, 0x16, 0xB8, 0x39] =
    .ok (.readInputs 0x01 0x00C4 22 0x00) := by rfl

theorem test_decode_readHoldingRegisters : decode (.request .lowFirst) [0x01, 0x03, 0x00, 0x00, 0x00, 0x02, 0xC4, 0x0B] =
    .ok (.readHoldingRegisters 0x01 0x0000 2 0x00) := by rfl

theorem test_decode_readInputRegisters : decode (.request .lowFirst) [0x11, 0x04, 0x00, 0x08, 0x00, 0x01, 0xB2, 0x98] =
    .ok (.readInputRegisters 0x11 0x0008 1 0x00) := by rfl

theorem test_decode_writeSingleCoil : decode (.request .lowFirst) [0x11, 0x05, 0x00, 0xAC, 0xFF, 0x00, 0x4E, 0x8B] =
    .ok (.writeSingleCoil 0x11 0x00AC true 0x00) := by rfl

theorem test_decode_writeSingleRegister : decode (.request .lowFirst) [0x11, 0x06, 0x00, 0x01, 0x00, 0x03, 0x9A, 0x9B] =
    .ok (.writeSingleRegister 0x11 0x0001 0x0003 0x00) := by rfl

theorem test_decode_writeMultiCoils : decode (.request .lowFirst) [0x01, 0x0F, 0x00, 0x00, 0x00, 0x03, 0x01, 0x05, 0x4F, 0x54] =
    .ok (.writeMultiCoils 0x01 0x0000 [true, false, true] 0x00) := by rfl

theorem test_decode_writeMultiRegisters : decode (.request .lowFirst) [0x11, 0x10, 0x00, 0x01, 0x00, 0x02, 0x04, 0x00, 0x0A, 0x01, 0x02, 0xC6, 0xF0] =
    .ok (.writeMultiRegisters 0x11 0x0001 [0x000A, 0x0102] 0x00) := by rfl

theorem test_decode_writeMultiRegistersVendor : decode (.request .lowFirst) [0x11, 0x10, 0x00, 0x01, 0x00, 0x02, 0x00, 0x04, 0x00, 0x0A, 0x01, 0x02, 0x73, 0x3D] =
    .ok (.writeMultiRegistersVendor 0x11 0x0001 [0x000A, 0x0102] 0x00) := by rfl

theorem test_decode_replyNormal01 : decode (.reply 0x01) [0x01, 0x01, 0x02, 0xCD, 0x01, 0x2C, 0xAC] =
    .ok (.replyNormal01 0x01 0x02 [0xCD, 0x01] 0x2C 0xAC) := by rfl

theorem test_decode_replyNormal02 : decode (.reply 0x02) [0x01, 0x02, 0x01, 0x35, 0x61, 0x9F] =
    .ok (.replyNormal02 0x01 0x01 [0x35] 0x61 0x9F) := by rfl

theorem test_decode_replyNormal03 : decode (.reply 0x03) [0x01, 0x03, 0x04, 0x00, 0x06, 0x00, 0x05, 0xDA, 0x31] =
    .ok (.replyNormal03 0x01 0x04 [0x00, 0x06, 0x00, 0x05] 0xDA 0x31) := by rfl

theorem test_decode_replyNormal04 : decode (.reply 0x04) [0x01, 0x04, 0x02, 0x00, 0x01, 0x78, 0xF0] =
    .ok (.replyNormal04 0x01 0x02 [0x00, 0x01] 0x78 0xF0) := by rfl

theorem test_decode_replyNormal05 : decode (.reply 0x05) [0x11, 0x05, 0x00, 0xAC, 0xFF, 0x00, 0x4E, 0x8B] =
    .ok (.replyNormal05 0x11 0x00AC 0xFF00 0x4E 0x8B) := by rfl

theorem test_decode_replyNormal06 : decode (.reply 0x06) [0x11, 0x06, 0x00, 0x01, 0x00, 0x03, 0x9A, 0x9B] =
    .ok (.replyNormal06 0x11 0x0001 0x0003 0x9A 0x9B) := by rfl

theorem test_decode_replyNormal0F : decode (.reply 0x0F) [0x01, 0x0F, 0x00, 0x00, 0x00, 0x03, 0x15, 0xCA] =
    .ok (.replyNormal0F 0x01 0x0000 0x0003 0x15 0xCA) := by rfl

theorem test_decode_replyNormal10 : decode (.reply 0x10) [0x11, 0x10, 0x00, 0x01, 0x00, 0x02, 0x12, 0x98] =
    .ok (.replyNormal10 0x11 0x0001 0x0002 0x12 0x98) := by rfl

theorem test_decode_replyException81 : decode (.reply 0x01) [0x01, 0x81, 0x02, 0xC1, 0x91] =
    .ok (.replyException81 0x01 0x02 0xC1 0x91) := by rfl

theorem test_decode_replyException82 : decode (.reply 0x02) [0x01, 0x82, 0x02, 0xC1, 0x61] =
    .ok (.replyException82 0x01 0x02 0xC1 0x61) := by rfl

theorem test_decode_replyException83 : decode (.reply 0x03) [0x01, 0x83, 0x02, 0xC0, 0xF1] =
    .ok (.replyException83 0x01 0x02 0xC0 0xF1) := by rfl

theorem test_decode_replyException84 : decode (.reply 0x04) [0x01, 0x84, 0x02, 0xC2, 0xC1] =
    .ok (.replyException84 0x01 0x02 0xC2 0xC1) := by rfl

theorem test_decode_replyException85 : decode (.reply 0x05) [0x01, 0x85, 0x02, 0xC3, 0x51] =
    .ok (.replyException85 0x01 0x02 0xC3 0x51) := by rfl

theorem test_decode_replyException86 : decode (.reply 0x06) [0x01, 0x86, 0x02, 0xC3, 0xA1] =
    .ok (.replyException86 0x01 0x02 0xC3 0xA1) := by rfl

theorem test_decode_replyException8F : decode (.reply 0x0F) [0x01, 0x8F, 0x02, 0xC5, 0xF1] =
    .ok (.replyException8F 0x01 0x02 0xC5 0xF1) := by rfl

theorem test_decode_replyException90 : decode (.reply 0x10) [0x01, 0x90, 0x02, 0xCD, 0xC1] =
    .ok (.replyException90 0x01 0x02 0xCD 0xC1) := by rfl

/-- V11, V16 and the HighFirst reading of a frame: the order is the reader's (R88). -/
theorem test_decode_highFirst :
    decode (.request .highFirst) [0x01, 0x01, 0x00, 0x13, 0x00, 0x25, 0x14, 0x0C] = .ok (.readCoils 0x01 0x0013 37 0x01) ∧
    decode (.request .lowFirst) [0x01, 0x01, 0x00, 0x13, 0x00, 0x25, 0x14, 0x0C] = .error .badChecksum := ⟨rfl, rfl⟩

/-- Frames that are no instruction (R83, R84, R140, R141). -/
theorem test_decode_rejects :
    decodeBody [0x01, 0x07, 0x00, 0x00, 0x00, 0x01] = .error .unknownFunctionCode ∧
    decodeBody [0x11, 0x05, 0x00, 0xAC, 0x00, 0x01] = .error .badCoilValue ∧
    decodeBody [0x01, 0x0F, 0x00, 0x00, 0x00, 0x03, 0x01, 0x0D] = .error .badPadding ∧
    decodeBody [0x01, 0x0F, 0x00, 0x00, 0x00, 0x03, 0x02, 0x05] = .error .badByteCount ∧
    decodeBody [0x01, 0x03, 0x00, 0x00, 0x00] = .error .tooShort ∧
    decode (.reply 0x03) [0x01, 0x04, 0x02, 0x00, 0x01, 0x78, 0xF0] = .error .foreignFunctionCode ∧
    decode (.reply 0x06) [0x11, 0x06, 0x00, 0x01, 0x00, 0x9A, 0x9B] = .error .badLength := by
  refine ⟨rfl, rfl, rfl, rfl, rfl, rfl, rfl⟩

/-- A table word, its 16-bit words written out: `0101 0013 0025` and `1183`. -/
theorem test_table_words :
    decodeTableWord 48 0x002500130101 = some (.readCoils 0x01 0x0013 37 0x00) ∧
    decodeTableWord 16 0x0110 = some (.writeMultiRegisters 0x01 0x0000 [] 0x00) ∧
    decodeTableWord 24 0x02000183 = some (.replyException83 0x01 0x00 0x00 0x00) ∧
    decodeTableWord 32 0x02000183 = some (.replyException83 0x01 0x02 0x00 0x00) ∧
    decodeTableWord 16 0x0007 = none := by decide +kernel

/-! ### Encoding (V12 to V45) and packing (S3) -/

theorem test_pack : pack [true, false, true] = [0x05] ∧
    pack [true, false, true, true, false, false, true, true, true, false] = [0xCD, 0x01] ∧
    pack (List.replicate 9 true) = [0xFF, 0x01] ∧ pack [] = [] := by decide

theorem test_encode_reads :
    encode (.readHoldingRegisters 0x11 0x006B 3 0x00) = some [0x11, 0x03, 0x00, 0x6B, 0x00, 0x03, 0x76, 0x87] ∧
    encode (.readHoldingRegisters 0xFF 0xFFFF 65535 0x00) = some [0xFF, 0x03, 0xFF, 0xFF, 0xFF, 0xFF, 0x51, 0x80] ∧
    encode (.readInputs 0x00 0x0000 9 0x00) = some [0x00, 0x02, 0x00, 0x00, 0x00, 0x09, 0xB9, 0xDD] ∧
    encode (.readInputRegisters 0x11 0x0008 1 0x01) = some [0x11, 0x04, 0x00, 0x08, 0x00, 0x01, 0x98, 0xB2] ∧
    encode (.readCoils 0x01 0x0000 1 0x02) = none := by decide +kernel

theorem test_encode_writes :
    encode (.writeSingleCoil 0x11 0x00AC false 0x00) = some [0x11, 0x05, 0x00, 0xAC, 0x00, 0x00, 0x0F, 0x7B] ∧
    encode (.writeSingleRegister 0x01 0xFFFF 0xFFFF 0x00) = some [0x01, 0x06, 0xFF, 0xFF, 0xFF, 0xFF, 0x88, 0x5E] ∧
    encode (.writeMultiCoils 0x01 0x0000 (List.replicate 9 true) 0x00) =
      some [0x01, 0x0F, 0x00, 0x00, 0x00, 0x09, 0x02, 0xFF, 0x01, 0x65, 0x4C] ∧
    encode (.writeMultiCoils 0x01 0x0000 [] 0x00) = some [0x01, 0x0F, 0x00, 0x00, 0x00, 0x00, 0x00, 0x0B, 0x3F] ∧
    encode (.writeMultiRegisters 0x11 0x0001 [0x000A, 0x0102] 0x01) =
      some [0x11, 0x10, 0x00, 0x01, 0x00, 0x02, 0x04, 0x00, 0x0A, 0x01, 0x02, 0xF0, 0xC6] ∧
    encode (.writeMultiRegistersVendor 0x01 0x0000 [] 0x00) =
      some [0x01, 0x10, 0x00, 0x00, 0x00, 0x00, 0x00, 0x00, 0x90, 0x06] := by decide +kernel

/-- V43 to V45, the header bytes: the longest lists of the standard forms, and a list only the vendor form carries. -/
theorem test_encode_long :
    (requestBody (.writeMultiCoils 0x01 0 (List.replicate 2040 true))).take 7 =
      [0x01, 0x0F, 0x00, 0x00, 0x07, 0xF8, 0xFF] ∧
    (requestBody (.writeMultiRegisters 0x01 0 (List.replicate 127 0x1234))).take 9 =
      [0x01, 0x10, 0x00, 0x00, 0x00, 0x7F, 0xFE, 0x12, 0x34] ∧
    (requestBody (.writeMultiRegistersVendor 0x01 0 (List.replicate 128 0))).take 9 =
      [0x01, 0x10, 0x00, 0x00, 0x00, 0x80, 0x01, 0x00, 0x00] := by decide +kernel

/-- V22, V23. -/
theorem test_expected_lengths :
    [1, 8, 9, 2040, 2041, 65535].map (fun n => expectedResponseLength (.readCoils 0x01 0 n)) = [6, 6, 7, 260, 261, 8197] ∧
    [0, 1, 125, 127, 128, 65535].map (fun n => expectedResponseLength (.readInputRegisters 0x01 0 n)) =
      [5, 7, 255, 259, 261, 131075] := by decide

/-! ### The parser (V48 to V64) -/

theorem test_parse :
    parse [0x11, 0x03, 0x06, 0xAE, 0x41, 0x56, 0x52, 0x43, 0x40] 0x03 =
      ⟨.ok, 0x00, [0xAE, 0x41, 0x56, 0x52, 0x43, 0x40]⟩ ∧
    parse [0x01, 0x04, 0x00] 0x04 = ⟨.ok, 0x00, []⟩ ∧
    parse [0x01, 0x01, 0x02, 0x00] 0x01 = ⟨.lengthError, 0x02, []⟩ ∧
    parse [0x01, 0x03, 0xFF, 0x00, 0x01] 0x03 = ⟨.lengthError, 0xFF, []⟩ ∧
    parse [0x11, 0x10, 0x12, 0x34, 0x56, 0x78] 0x10 = ⟨.ok, 0x00, []⟩ ∧
    parse [0x01, 0x04, 0x02, 0x00, 0x01] 0x03 = ⟨.protocolError, 0x04, []⟩ ∧
    parse [0x01, 0x84, 0x02] 0x03 = ⟨.protocolError, 0x84, []⟩ ∧
    parse [0x01, 0x83, 0x0B] 0x03 = ⟨.slaveException, 0x0B, []⟩ ∧
    parse [0x01, 0x90, 0x07] 0x10 = ⟨.unknownSlaveException, 0x07, []⟩ := by decide

/-! ### Single steps: the commands -/

/-- V10. -/
theorem test_step_readCoils : contextAfter (step (offered (.readCoils 0x01 0x0013 37) 0x00 [.ok])) =
    some (.lowFirst, 0x01, 10, some (.txWrite [0x01, 0x01, 0x00, 0x13, 0x00, 0x25, 0x0C, 0x14])) := by decide +kernel

/-- V12. -/
theorem test_step_readInputs : contextAfter (step (offered (.readInputs 0x01 0x00C4 22) 0x00 [.ok])) =
    some (.lowFirst, 0x02, 8, some (.txWrite [0x01, 0x02, 0x00, 0xC4, 0x00, 0x16, 0xB8, 0x39])) := by decide +kernel

/-- V13, P1 step 1. -/
theorem test_step_readHoldingRegisters : contextAfter (step (offered (.readHoldingRegisters 0x01 0 2) 0x00 [.ok])) =
    some (.lowFirst, 0x03, 9, some (.txWrite [0x01, 0x03, 0x00, 0x00, 0x00, 0x02, 0xC4, 0x0B])) := by decide +kernel

/-- V16. -/
theorem test_step_readInputRegisters : contextAfter (step (offered (.readInputRegisters 0x11 8 1) 0x01 [.ok])) =
    some (.highFirst, 0x04, 7, some (.txWrite [0x11, 0x04, 0x00, 0x08, 0x00, 0x01, 0x98, 0xB2])) := by decide +kernel

/-- V27. -/
theorem test_step_writeSingleCoil : contextAfter (step (offered (.writeSingleCoil 0x11 0x00AC true) 0x01 [.ok])) =
    some (.highFirst, 0x05, 8, some (.txWrite [0x11, 0x05, 0x00, 0xAC, 0xFF, 0x00, 0x8B, 0x4E])) := by decide +kernel

/-- V28, P1 step 7. -/
theorem test_step_writeSingleRegister : contextAfter (step (offered (.writeSingleRegister 0x11 1 3) 0x00 [.ok])) =
    some (.lowFirst, 0x06, 8, some (.txWrite [0x11, 0x06, 0x00, 0x01, 0x00, 0x03, 0x9A, 0x9B])) := by decide +kernel

/-- V33, P3 step 1. -/
theorem test_step_writeMultiCoils : contextAfter (step (offered (.writeMultiCoils 0x11 0x0013 [true, false, true, true, false, false, true, true, true, false]) 0x01 [.ok])) =
    some (.highFirst, 0x0F, 8, some (.txWrite [0x11, 0x0F, 0x00, 0x13, 0x00, 0x0A, 0x02, 0xCD, 0x01, 0x0B, 0xBF])) := by decide +kernel

/-- V37. -/
theorem test_step_writeMultiRegisters : contextAfter (step (offered (.writeMultiRegisters 0x11 1 [0x000A, 0x0102]) 0x00 [.ok])) =
    some (.lowFirst, 0x10, 8, some (.txWrite [0x11, 0x10, 0x00, 0x01, 0x00, 0x02, 0x04, 0x00, 0x0A, 0x01, 0x02, 0xC6, 0xF0])) := by decide +kernel

/-- V41, P4 step 1. -/
theorem test_step_writeMultiRegistersVendor : contextAfter (step (offered (.writeMultiRegistersVendor 0x11 1 [0x000A, 0x0102]) 0x01 [.ok])) =
    some (.highFirst, 0x10, 8, some (.txWrite [0x11, 0x10, 0x00, 0x01, 0x00, 0x02, 0x00, 0x04, 0x00, 0x0A, 0x01, 0x02, 0x3D, 0x73])) := by decide +kernel

/-- V78, V79: an invalid selector; nothing goes to the transport. -/
theorem test_step_invalid_selector :
    resultOf (step (offered (.readHoldingRegisters 0x01 0 2) 0x02 [.ok])) = some (0x1, 0x00, 0) ∧
    resultOf (step (offered (.readHoldingRegisters 0x01 0 2) 0xFF [.ok])) = some (0x1, 0x00, 0) ∧
    (nextOf (step (offered (.readHoldingRegisters 0x01 0 2) 0x02 [.ok]))).map (·.trace) = some [] := by decide +kernel

/-- V80: a failed write; the frame was offered. -/
theorem test_step_write_failure :
    resultOf (step (offered (.readHoldingRegisters 0x01 0 2) 0x00 [.fail])) = some (0x2, 0x00, 0) ∧
    (nextOf (step (offered (.readHoldingRegisters 0x01 0 2) 0x00 [.fail]))).map (·.trace) =
      some [.txWrite [0x01, 0x03, 0x00, 0x00, 0x00, 0x02, 0xC4, 0x0B]] := by decide +kernel

/-- V46: one more than the longest list is refused. -/
theorem test_step_refuses_long_lists :
    exec (.writeMultiCoils 0x01 0 (List.replicate 2041 true) 0x00) State.reset = .refused .listTooLong ∧
    exec (.writeMultiRegisters 0x01 0 (List.replicate 128 0) 0x00) State.reset = .refused .listTooLong ∧
    exec (.writeMultiRegistersVendor 0x01 0 (List.replicate 32768 0) 0x00) State.reset = .refused .listTooLong := by
  refine ⟨?_, ?_, ?_⟩ <;>
    simp only [exec, execWriteMultiCoils, execWriteMultiRegisters, execWriteMultiRegistersVendor, exchange, admitted,
      List.length_replicate] <;> rfl

/-! ### Single steps: reads and replies -/

/-- V65, last read: OK with four bytes, every request of the same length alike (R179). -/
theorem test_step_replyNormal03 :
    let s := waiting .lowFirst 0x03 9 [0x01, 0x03, 0x04, 0x00, 0x06] [.data [0x00, 0x05, 0xDA, 0x31]]
    resultOf (step s) = some (0x0, 0x00, 4) ∧ payloadOf 5 (step s) = some [0x00, 0x06, 0x00, 0x05, 0x00] ∧
    (nextOf (step s)).map (·.trace) = some [.rxRead 4] := by decide +kernel

/-- V66, first read: a short chunk is kept. -/
theorem test_step_short_chunk :
    (nextOf (step (waiting .lowFirst 0x03 9 [] [.data [0x01, 0x03]]))).map (fun t => (t.phase, t.rxbuf, t.trace, t.done)) =
      some (.awaitingResponse, [0x01, 0x03], [.rxRead 5], false) := by decide +kernel

/-- V65, first read, with the whole reply held: five bytes are taken, four stay (R44). -/
theorem test_step_held_bytes :
    (nextOf (step (waiting .lowFirst 0x03 9 [] [.data [0x01, 0x03, 0x04, 0x00, 0x06, 0x00, 0x05, 0xDA, 0x31]]))).map
        (fun t => (t.rxbuf, t.rx)) =
      some ([0x01, 0x03, 0x04, 0x00, 0x06], [.data [0x00, 0x05, 0xDA, 0x31]]) := by decide +kernel

/-- V74, V73: the right order and the wrong one. -/
theorem test_step_order :
    resultOf (step (waiting .highFirst 0x03 9 [0x01, 0x03, 0x04, 0x00, 0x06] [.data [0x00, 0x05, 0x31, 0xDA]])) =
      some (0x0, 0x00, 4) ∧
    resultOf (step (waiting .lowFirst 0x03 9 [0x01, 0x03, 0x04, 0x00, 0x06] [.data [0x00, 0x05, 0x31, 0xDA]])) =
      some (0x4, 0x00, 0) := by decide +kernel

/-- V72: a wrong checksum. -/
theorem test_step_bad_checksum :
    resultOf (step (waiting .lowFirst 0x03 9 [0x01, 0x03, 0x04, 0x00, 0x06, 0x00, 0x05, 0xDA] [.data [0x30]])) =
      some (0x4, 0x00, 0) := by decide +kernel

/-- V75: the normal code of another request. -/
theorem test_step_foreign_code :
    resultOf (step (waiting .lowFirst 0x03 7 [0x01, 0x04, 0x02, 0x00, 0x01] [.data [0x78, 0xF0]])) =
      some (0x5, 0x04, 0) := by decide +kernel

/-- V90: the exception form of another request is no short-circuit, and ends as it does on its checksum. -/
theorem test_step_foreign_exception :
    (nextOf (step (waiting .lowFirst 0x03 7 [] [.data [0x01, 0x84, 0x02, 0xC2, 0xC1]]))).map (·.phase) =
      some .awaitingResponse ∧
    resultOf (step (waiting .lowFirst 0x03 7 [0x01, 0x84, 0x02, 0xC2, 0xC1] [.data [0x11, 0x22]])) =
      some (0x4, 0x00, 0) := by decide +kernel

/-- V76: a byte count past the frame. -/
theorem test_step_length_error :
    resultOf (step (waiting .lowFirst 0x01 6 [0x01, 0x01, 0x02, 0x00, 0x51] [.data [0x78]])) = some (0x8, 0x02, 0) := by
  decide +kernel

/-- V77: count 0, a normal reply of 5 bytes. -/
theorem test_step_replyNormal01 :
    resultOf (step (waiting .lowFirst 0x01 5 [] [.data [0x01, 0x01, 0x00, 0x21, 0x90]])) = some (0x0, 0x00, 0) ∧
    resultOf (exec (.replyNormal01 0x01 0x02 [0xCD, 0x01] 0x2C 0xAC) (waiting .lowFirst 0x01 7 [] [])) =
      some (0x0, 0x00, 2) := by decide +kernel

/-- The table's examples of the other read replies. -/
theorem test_step_replyNormal02 :
    payloadOf 1 (exec (.replyNormal02 0x01 0x01 [0x35] 0x61 0x9F) (waiting .lowFirst 0x02 6 [] [])) = some [0x35] := by
  decide +kernel

theorem test_step_replyNormal04 :
    payloadOf 2 (exec (.replyNormal04 0x01 0x02 [0x00, 0x01] 0x78 0xF0) (waiting .lowFirst 0x04 7 [] [])) =
      some [0x00, 0x01] := by decide +kernel

/-- V85 and the table's examples of the write replies; P3 step 3, P4 step 3. -/
theorem test_step_write_replies :
    resultOf (exec (.replyNormal05 0x11 0x00AC 0xFF00 0x4E 0x8B) (waiting .lowFirst 0x05 8 [] [])) = some (0x0, 0x00, 0) ∧
    resultOf (step (waiting .lowFirst 0x06 8 [0x11, 0x06, 0x00, 0x01, 0x00] [.data [0x03, 0x9A, 0x9B]])) =
      some (0x0, 0x00, 0) ∧
    resultOf (step (waiting .highFirst 0x0F 8 [0x11, 0x0F, 0x00, 0x13, 0x00] [.data [0x0A, 0x99, 0x26]])) =
      some (0x0, 0x00, 0) ∧
    resultOf (step (waiting .highFirst 0x10 8 [0x11, 0x10, 0x00, 0x01, 0x00] [.data [0x02, 0x98, 0x12]])) =
      some (0x0, 0x00, 0) := by decide +kernel

/-- The table's eight exception replies: SLAVE_EXCEPTION with code 0x02, whatever length was expected. -/
theorem test_step_exceptions :
    [(Instr.replyException81 0x01 0x02 0xC1 0x91, 0x01#8), (.replyException82 0x01 0x02 0xC1 0x61, 0x02#8),
      (.replyException83 0x01 0x02 0xC0 0xF1, 0x03#8), (.replyException84 0x01 0x02 0xC2 0xC1, 0x04#8),
      (.replyException85 0x01 0x02 0xC3 0x51, 0x05#8), (.replyException86 0x01 0x02 0xC3 0xA1, 0x06#8),
      (.replyException8F 0x01 0x02 0xC5 0xF1, 0x0F#8), (.replyException90 0x01 0x02 0xCD 0xC1, 0x10#8)].map
        (fun p => resultOf (exec p.1 (waiting .lowFirst p.2 9 [] []))) = List.replicate 8 (some (0x6, 0x02, 0)) := by
  decide +kernel

/-- V70, V71: an unmapped code; HighFirst. -/
theorem test_step_exception_codes :
    resultOf (step (waiting .lowFirst 0x03 9 [] [.data [0x01, 0x83, 0x99, 0x81, 0x5A]])) = some (0x7, 0x99, 0) ∧
    resultOf (step (waiting .highFirst 0x03 9 [] [.data [0x01, 0x83, 0x04, 0xF3, 0x40]])) = some (0x6, 0x04, 0) := by
  decide +kernel

/-- V81 to V84: a zero-byte read and a failed read, before and after 5 bytes. -/
theorem test_step_timeouts_and_failures :
    resultOf (step (waiting .lowFirst 0x03 9 [] [.zero])) = some (0x3, 0x00, 0) ∧
    resultOf (step (waiting .lowFirst 0x03 9 [0x01, 0x03, 0x04, 0x00, 0x06, 0x00, 0x05, 0xDA] [.zero])) =
      some (0x3, 0x00, 0) ∧
    resultOf (step (waiting .lowFirst 0x03 9 [0x01, 0x03, 0x04] [.fail])) = some (0x2, 0x00, 0) ∧
    resultOf (step (waiting .lowFirst 0x03 9 [0x01, 0x03, 0x04, 0x00, 0x06] [.fail])) = some (0x2, 0x00, 0) := by
  decide +kernel

/-- P5 step 6: stale bytes end the next exchange with CHECKSUM_ERROR. -/
theorem test_step_stale_bytes :
    resultOf (step (waiting .lowFirst 0x03 7 [0x01, 0x00, 0x03, 0x9A, 0x9B] [.data [0x11, 0x03]])) =
      some (0x4, 0x00, 0) := by decide +kernel

/-- P5 step 3: RESET mid-exchange leaves the transport's bytes. -/
theorem test_step_reset :
    let s := { waiting .lowFirst 0x06 8 [0x11, 0x06, 0x00] [.data [0x01, 0x00, 0x03, 0x9A, 0x9B]] with
      turns := [.host .reset] }
    (nextOf (step s)).map (fun t => (t.phase, t.done, t.rxbuf, t.rx)) =
      some (.idle, false, [], [.data [0x01, 0x00, 0x03, 0x9A, 0x9B]]) := by decide +kernel

/-- An error writes no payload byte (R214): the payload of before stays. -/
theorem test_step_error_keeps_payload :
    let s := { waiting .lowFirst 0x03 9 [0x01, 0x03, 0x04, 0x00, 0x06] [.data [0x00, 0x05, 0xDA, 0x30]] with
      payload := Vector.replicate 255 0xEE }
    payloadOf 4 (step s) = some [0xEE, 0xEE, 0xEE, 0xEE] := by decide +kernel

/-! ### The host's ports -/

theorem test_step_query :
    (nextOf (step { State.reset with turns := [.host (.query (.crc16 [0x01, 0x83, 0x02]))] })).map (·.trace) =
      some [.answered (.word 0xF1C0)] ∧
    (nextOf (step { State.reset with turns := [.host (.query (.decodeException 0x0B))] })).map (·.trace) =
      some [.answered (.result ⟨.slaveException, 0x0B, []⟩)] := by decide +kernel

theorem test_step_stops :
    step { State.reset with turns := [.host (.query (.parse [0x01, 0x03] 0x03))] } = .refused .parseOperands ∧
    step { State.reset with turns := [.host (.query (.parse [0x01, 0x03, 0x00] 0x07))] } = .refused .parseOperands ∧
    step { State.reset with turns := [.host (.read .status)] } = .fault .resultNotReady ∧
    step { State.reset with turns := [.host (.read (.payload 0))] } = .fault .payloadNotReadable ∧
    step { waiting .lowFirst 0x03 9 [] [] with turns := [.host .closeTransport] } = .refused .closeWhileBusy := by
  refine ⟨rfl, rfl, rfl, rfl, rfl⟩

/-- V62: the kinds, recovered from the result of an exchange. -/
theorem test_exception_kinds :
    [0x01, 0x02, 0x03, 0x04, 0x05, 0x06, 0x0A, 0x0B].map
        (fun code => resultKind (finish (parse [0x01, 0x83, code] 0x03) State.reset)) =
      [some .illegalFunction, some .illegalDataAddress, some .illegalDataValue, some .slaveDeviceFailure, some .acknowledge,
        some .slaveDeviceBusy, some .gatewayPathUnavailable, some .gatewayTargetDeviceFailedToRespond] ∧
    resultKind (finish (parse [0x01, 0x83, 0x08] 0x03) State.reset) = none := by decide +kernel

/-- The table word of a row runs as the first instruction after reset. -/
theorem test_withFetchWord :
    resultOf (step (State.reset.withFetchWord 16 0x0083)) = some (0x4, 0x00, 0) ∧
    (nextOf (step { State.reset.withFetchWord 48 0x002500130101 with tx := [.ok] })).map (·.ctxExplen) = some 10 := by
  decide +kernel

/-! ### Witnesses: states and operands that meet a statement's hypotheses together -/

/-- A sound state in the middle of an exchange. -/
theorem waiting_inv (ord : ChecksumOrder) (fc : Byte) (explen : Nat) (rxbuf : Bytes) (rx : List RxOutcome)
    (hfc : fc ∈ [0x01#8, 0x02#8, 0x03#8, 0x04#8, 0x05#8, 0x06#8, 0x0F#8, 0x10#8]) (hlow : 5 ≤ explen) (hhigh : explen ≤ 131075)
    (hbelow : rxbuf.length < target fc explen rxbuf) : (waiting ord fc explen rxbuf rx).Inv := by
  have := target_le (fc := fc) rxbuf hlow
  refine ⟨fun _ => ⟨hfc, hlow, hhigh, hbelow⟩, fun h => ?_, Nat.zero_le _, Nat.zero_le _, ?_⟩
  · cases h
  · show rxbuf.length ≤ 131075
    omega

/-- No host move is waiting. -/
theorem blockTurn_of_nil {s : State} (h : s.turns = []) : BlockTurn s := by
  intro m
  simp [h]

theorem witness_SingleBitErrorsAreDetected :
    ∃ f : Bytes, 0 + 2 < f.length ∧ 6 + 2 < f.length ∧ check f .lowFirst = true :=
  ⟨[0x01, 0x03, 0x04, 0x00, 0x06, 0x00, 0x05, 0xDA, 0x31], by decide +kernel⟩

theorem witness_WrongOrderFailsUnlessBytesAgree : ChecksumOrder.lowFirst ≠ .highFirst ∧ ChecksumOrder.highFirst ≠ .lowFirst := by
  decide

/-- Both sides of the equivalence are met by some body. -/
theorem witness_WrongOrder_sides :
    check (sealFrame [0x01, 0x06, 0x00, 0x01, 0x00, 0x39] .lowFirst) .highFirst = true ∧
    check (sealFrame [0x01, 0x03, 0x00, 0x00, 0x00, 0x02] .lowFirst) .highFirst = false := by decide +kernel

/-- Byte 1 bit 1 of ten coils, and the padding bit 7. -/
theorem witness_CoilsArePackedLsbFirst :
    ∃ coils : List Bool, 0 < (coils.length + 7) / 8 ∧ 1 < (coils.length + 7) / 8 ∧ 8 * 1 + 7 ≥ coils.length :=
  ⟨List.replicate 10 true, by decide⟩

/-- The longest lists of the three multi writes, and the empty ones. -/
theorem witness_RequestFramesAreBitExact :
    (List.replicate 2040 true).length ≤ 2040 ∧ (List.replicate 127 (0 : Word)).length ≤ 127 ∧
    (List.replicate 32767 (0 : Word)).length ≤ 32767 ∧ ([] : List Bool).length ≤ 2040 ∧ ([] : List Word).length ≤ 127 := by
  simp only [List.length_replicate, List.length_nil]; decide

theorem witness_RegisterValuesAreBigEndian : 0 < [0x000A#16, 0x0102#16].length ∧ 1 < [0x000A#16, 0x0102#16].length := by decide

theorem witness_DecodeInvertsEncode :
    (∃ i f c, i.wellFormed = true ∧ encode i = some f ∧ contextOf i = some c ∧ commandOf i ≠ none) ∧
    (∃ i f c, i.wellFormed = true ∧ encode i = some f ∧ contextOf i = some c ∧ commandOf i = none) :=
  ⟨⟨.writeMultiCoils 0x01 0 [true, false, true] 0x00, [0x01, 0x0F, 0x00, 0x00, 0x00, 0x03, 0x01, 0x05, 0x4F, 0x54],
      .request .lowFirst, rfl, rfl, rfl, by decide⟩,
    ⟨.replyException90 0x01 0x02 0xCD 0xC1, [0x01, 0x90, 0x02, 0xCD, 0xC1], .reply 0x10, rfl, rfl, rfl, rfl⟩⟩

theorem witness_EncodeInvertsDecode :
    decode (.request .lowFirst) [0x11, 0x05, 0x00, 0xAC, 0xFF, 0x00, 0x4E, 0x8B] = .ok (.writeSingleCoil 0x11 0x00AC true 0x00) ∧
    decode (.reply 0x02) [0x01, 0x02, 0x01, 0x35, 0x61, 0x9F] = .ok (.replyNormal02 0x01 0x01 [0x35] 0x61 0x9F) := ⟨rfl, rfl⟩

/-- Each clause, at the boundary byte counts: `|data|` and one more. -/
theorem witness_ParseDecisionRule :
    (0x03#8 ∈ [0x01#8, 0x02#8, 0x03#8, 0x04#8] ∧ (2#8).toNat ≤ [0x12#8, 0x34#8].length) ∧
    (0x03#8 ∈ [0x01#8, 0x02#8, 0x03#8, 0x04#8] ∧ [0x12#8, 0x34#8].length < (3#8).toNat) ∧
    0x10#8 ∈ [0x05#8, 0x06#8, 0x0F#8, 0x10#8] ∧
    0x90#8 = (0x10#8 ||| 0x80#8) ∧
    (0x84#8 ≠ 0x03#8 ∧ 0x84#8 ≠ (0x03#8 ||| 0x80#8)) := by decide

/-- V85 and V86: the same echo from two addresses. -/
theorem witness_AddressByteIsNotExamined :
    2 ≤ [0x06#8, 0x00#8, 0x01#8, 0x00#8, 0x03#8].length ∧
    check (0x11 :: [0x06, 0x00, 0x01, 0x00, 0x03] ++ [0x9A, 0x9B]) (waiting .lowFirst 0x06 8 [] []).ctxOrder = true ∧
    check (0x12 :: [0x06, 0x00, 0x01, 0x00, 0x03] ++ [0x9A, 0xA8]) (waiting .lowFirst 0x06 8 [] []).ctxOrder = true := by
  decide +kernel

/-- An idle block whose next write succeeds, or fails; also past the end of `tx` for whatever value is drawn there. -/
def idleWith (tx : List TxOutcome) : State := { State.reset with tx := tx }

theorem witness_ReadRequestsStartAnExchange :
    (idleWith [.ok]).phase = .idle ∧ selectedOrder 0x00 = some .lowFirst ∧ selectedOrder 0x01 = some .highFirst ∧
      WriteDraws (idleWith [.ok]) .ok := ⟨rfl, rfl, rfl, rfl⟩

theorem witness_SingleWritesStartAnExchange :
    (idleWith [.ok]).phase = .idle ∧ selectedOrder 0x00 = some .lowFirst ∧ WriteDraws (idleWith [.ok]) .ok := ⟨rfl, rfl, rfl⟩

/-- With the longest list of each kind. -/
theorem witness_MultiWritesStartAnExchange :
    (idleWith [.ok]).phase = .idle ∧ selectedOrder 0x01 = some .highFirst ∧ WriteDraws (idleWith [.ok]) .ok ∧
      (List.replicate 2040 true).length ≤ 2040 ∧ (List.replicate 127 (0 : Word)).length ≤ 127 ∧
      (List.replicate 32767 (0 : Word)).length ≤ 32767 := by
  refine ⟨rfl, rfl, rfl, ?_⟩
  simp only [List.length_replicate]; decide

/-- The write outcome past the end of `tx` is one of the two, so the statements about either cover it. -/
theorem witness_WriteDraws_free : WriteDraws (idleWith []) .ok ∨ WriteDraws (idleWith []) .fail := by
  simp only [WriteDraws, idleWith, List.headD_nil]
  cases Config.freeTxOutcome State.reset.draws <;> simp

theorem witness_InvalidSelectorEndsTheCommand :
    admitted (.writeMultiCoils 0x01 0 []) = true ∧ (idleWith [.ok]).phase = .idle ∧
    (0x02#8 ≠ 0x00#8 ∧ 0x02#8 ≠ 0x01#8) ∧ (0xFF#8 ≠ 0x00#8 ∧ 0xFF#8 ≠ 0x01#8) := by decide

theorem witness_WriteFailureEndsTheCommand :
    admitted (.readCoils 0x01 0 1) = true ∧ (idleWith [.fail]).phase = .idle ∧ selectedOrder 0x00 = some .lowFirst ∧
      WriteDraws (idleWith [.fail]) .fail := ⟨rfl, rfl, rfl, rfl⟩

theorem witness_BusyBlockHoldsTheCommand :
    admitted (.readCoils 0x01 0 1) = true ∧ (waiting .lowFirst 0x03 9 [] []).phase = .awaitingResponse := ⟨rfl, rfl⟩

/-- The table's four read replies, `bc = |data|`; and `bc = 0` (V77). -/
theorem witness_ReadRepliesReturnTheirData :
    (let s := waiting .lowFirst 0x01 7 [] [];
      s.phase = .awaitingResponse ∧ s.ctxFc = 0x01 ∧ s.ctxExplen = 5 + ([0xCD, 0x01] : Bytes).length ∧
      [0x2C, 0xAC] = place (crc16 ([0x01, 0x01, 0x02] ++ [0xCD, 0x01])) s.ctxOrder ∧
      (0x02#8).toNat ≤ ([0xCD, 0x01] : Bytes).length) ∧
    (let s := waiting .lowFirst 0x02 6 [] [];
      s.phase = .awaitingResponse ∧ s.ctxFc = 0x02 ∧ s.ctxExplen = 5 + ([0x35] : Bytes).length ∧
      [0x61, 0x9F] = place (crc16 ([0x01, 0x02, 0x01] ++ [0x35])) s.ctxOrder ∧
      (0x01#8).toNat ≤ ([0x35] : Bytes).length) ∧
    (let s := waiting .lowFirst 0x03 9 [] [];
      s.phase = .awaitingResponse ∧ s.ctxFc = 0x03 ∧ s.ctxExplen = 5 + ([0x00, 0x06, 0x00, 0x05] : Bytes).length ∧
      [0xDA, 0x31] = place (crc16 ([0x01, 0x03, 0x04] ++ [0x00, 0x06, 0x00, 0x05])) s.ctxOrder ∧
      (0x04#8).toNat ≤ ([0x00, 0x06, 0x00, 0x05] : Bytes).length) ∧
    (let s := waiting .lowFirst 0x04 7 [] [];
      s.phase = .awaitingResponse ∧ s.ctxFc = 0x04 ∧ s.ctxExplen = 5 + ([0x00, 0x01] : Bytes).length ∧
      [0x78, 0xF0] = place (crc16 ([0x01, 0x04, 0x02] ++ [0x00, 0x01])) s.ctxOrder ∧
      (0x02#8).toNat ≤ ([0x00, 0x01] : Bytes).length) ∧
    (let s := waiting .lowFirst 0x01 5 [] [];
      s.phase = .awaitingResponse ∧ s.ctxFc = 0x01 ∧ s.ctxExplen = 5 + ([] : Bytes).length ∧
      [0x21, 0x90] = place (crc16 ([0x01, 0x01, 0x00] ++ [])) s.ctxOrder ∧
      (0x00#8).toNat ≤ ([] : Bytes).length) := by
  refine ⟨?_, ?_, ?_, ?_, ?_⟩ <;> exact ⟨rfl, rfl, rfl, by decide +kernel, by decide⟩

/-- V76: one more byte counted than there is. -/
theorem witness_ReadRepliesWithTooLargeByteCount :
    (waiting .lowFirst 0x01 6 [] []).phase = .awaitingResponse ∧
    [0x51, 0x78] = place (crc16 ([0x01, 0x01, 0x02] ++ [0x00])) (waiting .lowFirst 0x01 6 [] []).ctxOrder ∧
    [0x00#8].length < (0x02#8).toNat := by decide +kernel

theorem witness_WriteRepliesAreOk :
    (let s := waiting .lowFirst 0x05 8 [] [];
      s.phase = .awaitingResponse ∧ s.ctxFc = 0x05 ∧ s.ctxExplen = 8 ∧
      [0x4E, 0x8B] = place (crc16 ([0x11, 0x05] ++ be16 0x00AC ++ be16 0xFF00)) s.ctxOrder) ∧
    (let s := waiting .lowFirst 0x06 8 [] [];
      s.phase = .awaitingResponse ∧ s.ctxFc = 0x06 ∧ s.ctxExplen = 8 ∧
      [0x9A, 0x9B] = place (crc16 ([0x11, 0x06] ++ be16 0x0001 ++ be16 0x0003)) s.ctxOrder) ∧
    (let s := waiting .lowFirst 0x0F 8 [] [];
      s.phase = .awaitingResponse ∧ s.ctxFc = 0x0F ∧ s.ctxExplen = 8 ∧
      [0x15, 0xCA] = place (crc16 ([0x01, 0x0F] ++ be16 0x0000 ++ be16 0x0003)) s.ctxOrder) ∧
    (let s := waiting .lowFirst 0x10 8 [] [];
      s.phase = .awaitingResponse ∧ s.ctxFc = 0x10 ∧ s.ctxExplen = 8 ∧
      [0x12, 0x98] = place (crc16 ([0x11, 0x10] ++ be16 0x0001 ++ be16 0x0002)) s.ctxOrder) := by
  refine ⟨?_, ?_, ?_, ?_⟩ <;> exact ⟨rfl, rfl, rfl, by decide +kernel⟩

theorem witness_ExceptionRepliesReportTheirCode :
    (let s := waiting .lowFirst 0x01 9 [] [];
      s.phase = .awaitingResponse ∧ s.ctxFc = 0x01 ∧
      [0xC1, 0x91] = place (crc16 [0x01, 0x01 ||| 0x80, 0x02]) s.ctxOrder) ∧
    (let s := waiting .lowFirst 0x02 9 [] [];
      s.phase = .awaitingResponse ∧ s.ctxFc = 0x02 ∧
      [0xC1, 0x61] = place (crc16 [0x01, 0x02 ||| 0x80, 0x02]) s.ctxOrder) ∧
    (let s := waiting .lowFirst 0x03 9 [] [];
      s.phase = .awaitingResponse ∧ s.ctxFc = 0x03 ∧
      [0xC0, 0xF1] = place (crc16 [0x01, 0x03 ||| 0x80, 0x02]) s.ctxOrder) ∧
    (let s := waiting .lowFirst 0x04 9 [] [];
      s.phase = .awaitingResponse ∧ s.ctxFc = 0x04 ∧
      [0xC2, 0xC1] = place (crc16 [0x01, 0x04 ||| 0x80, 0x02]) s.ctxOrder) ∧
    (let s := waiting .lowFirst 0x05 9 [] [];
      s.phase = .awaitingResponse ∧ s.ctxFc = 0x05 ∧
      [0xC3, 0x51] = place (crc16 [0x01, 0x05 ||| 0x80, 0x02]) s.ctxOrder) ∧
    (let s := waiting .lowFirst 0x06 9 [] [];
      s.phase = .awaitingResponse ∧ s.ctxFc = 0x06 ∧
      [0xC3, 0xA1] = place (crc16 [0x01, 0x06 ||| 0x80, 0x02]) s.ctxOrder) ∧
    (let s := waiting .lowFirst 0x0F 9 [] [];
      s.phase = .awaitingResponse ∧ s.ctxFc = 0x0F ∧
      [0xC5, 0xF1] = place (crc16 [0x01, 0x0F ||| 0x80, 0x02]) s.ctxOrder) ∧
    (let s := waiting .lowFirst 0x10 9 [] [];
      s.phase = .awaitingResponse ∧ s.ctxFc = 0x10 ∧
      [0xCD, 0xC1] = place (crc16 [0x01, 0x10 ||| 0x80, 0x02]) s.ctxOrder) := by
  refine ⟨?_, ?_, ?_, ?_, ?_, ?_, ?_, ?_⟩ <;> exact ⟨rfl, rfl, by decide +kernel⟩

/-- V72, and an exception frame with a wrong byte. -/
theorem witness_BadChecksumEndsTheExchange :
    (let s := waiting .lowFirst 0x03 9 [] [];
      contextOf (.replyNormal03 0x01 0x04 [0x00, 0x06, 0x00, 0x05] 0xDA 0x30) = some (.reply 0x03) ∧
      encode (.replyNormal03 0x01 0x04 [0x00, 0x06, 0x00, 0x05] 0xDA 0x30) =
        some ([0x01, 0x03, 0x04, 0x00, 0x06, 0x00, 0x05] ++ [0xDA, 0x30]) ∧ s.phase = .awaitingResponse ∧
      target s.ctxFc s.ctxExplen ([0x01, 0x03, 0x04, 0x00, 0x06, 0x00, 0x05] ++ [0xDA, 0x30]) = 7 + 2 ∧
      unplace 0xDA 0x30 s.ctxOrder ≠ crc16 [0x01, 0x03, 0x04, 0x00, 0x06, 0x00, 0x05]) ∧
    (let s := waiting .lowFirst 0x03 9 [] [];
      encode (.replyException83 0x01 0x02 0xC0 0xF0) = some ([0x01, 0x83, 0x02] ++ [0xC0, 0xF0]) ∧
      target s.ctxFc s.ctxExplen ([0x01, 0x83, 0x02] ++ [0xC0, 0xF0]) = 3 + 2 ∧
      unplace 0xC0 0xF0 s.ctxOrder ≠ crc16 [0x01, 0x83, 0x02]) := by decide +kernel

/-- V75. -/
theorem witness_ForeignRepliesAreProtocolErrors :
    let s := waiting .lowFirst 0x03 7 [] []
    contextOf (.replyNormal04 0x01 0x02 [0x00, 0x01] 0x78 0xF0) = some (.reply 0x04) ∧
    encode (.replyNormal04 0x01 0x02 [0x00, 0x01] 0x78 0xF0) = some (0x01 :: 0x04 :: [0x02, 0x00, 0x01] ++ [0x78, 0xF0]) ∧
    s.phase = .awaitingResponse ∧ s.ctxExplen = [0x02#8, 0x00#8, 0x01#8].length + 4 ∧ 0x04#8 ≠ s.ctxFc ∧
    0x04#8 ≠ (s.ctxFc ||| 0x80#8) ∧ unplace 0x78 0xF0 s.ctxOrder = crc16 (0x01 :: 0x04 :: [0x02, 0x00, 0x01]) := by
  decide +kernel

/-- One byte short of the target, and one byte past it. -/
theorem witness_RepliesOffTheirTarget :
    let f : Bytes := [0x01, 0x02, 0x01, 0x35, 0x61, 0x9F]
    contextOf (.replyNormal02 0x01 0x01 [0x35] 0x61 0x9F) = some (.reply 0x02) ∧
    encode (.replyNormal02 0x01 0x01 [0x35] 0x61 0x9F) = some f ∧
    (let s := waiting .lowFirst 0x02 7 [] [];
      s.phase = .awaitingResponse ∧ f.length < target s.ctxFc s.ctxExplen f) ∧
    (let s := waiting .lowFirst 0x02 5 [] [];
      s.phase = .awaitingResponse ∧ target s.ctxFc s.ctxExplen f < f.length) := by decide +kernel

theorem witness_RepliesWhileIdleStayInTheTransport :
    contextOf (.replyException81 0x01 0x02 0xC1 0x91) = some (.reply 0x01) ∧
    encode (.replyException81 0x01 0x02 0xC1 0x91) = some [0x01, 0x81, 0x02, 0xC1, 0x91] ∧ State.reset.phase = .idle := by
  decide

theorem witness_StepRunsTheInstruction :
    (let s := offered (.readCoils 0x01 0 1) 0x00 [.ok];
      BlockTurn s ∧ s.phase = .idle ∧ s.port = ⟨.readCoils 0x01 0 1, 0x00⟩ :: []) ∧
    (let s := waiting .lowFirst 0x03 9 [0x01, 0x03, 0x04, 0x00, 0x06] [.data [0x00, 0x05, 0xDA, 0x31]];
      BlockTurn s ∧ s.phase = .awaitingResponse ∧ s.rx = .data [0x00, 0x05, 0xDA, 0x31] :: [] ∧
      [0x00#8, 0x05#8, 0xDA#8, 0x31#8].length ≤ target s.ctxFc s.ctxExplen s.rxbuf - s.rxbuf.length ∧
      target s.ctxFc s.ctxExplen (s.rxbuf ++ [0x00, 0x05, 0xDA, 0x31]) ≤ (s.rxbuf ++ [0x00, 0x05, 0xDA, 0x31]).length ∧
      decode (.reply s.ctxFc) (s.rxbuf ++ [0x00, 0x05, 0xDA, 0x31]) =
        .ok (.replyNormal03 0x01 0x04 [0x00, 0x06, 0x00, 0x05] 0xDA 0x31)) :=
  ⟨⟨blockTurn_of_nil rfl, rfl, rfl⟩,
    ⟨blockTurn_of_nil rfl, rfl, rfl, by decide, by decide, rfl⟩⟩

/-- A read of one byte, and one the transport holds more for (both sides of the last clause). -/
theorem witness_ReadsTakeExactlyTheMissingBytes :
    (let s := waiting .lowFirst 0x03 9 [0x01, 0x03, 0x04, 0x00] [.data [0x06]];
      s.Inv ∧ BlockTurn s ∧ s.phase = .awaitingResponse ∧ s.rx = .data [0x06] :: [] ∧
      [0x06#8].length ≤ target s.ctxFc s.ctxExplen s.rxbuf - s.rxbuf.length) ∧
    (let s := waiting .lowFirst 0x03 9 [0x01, 0x03, 0x04, 0x00] [.data [0x06, 0x00]];
      s.Inv ∧ BlockTurn s ∧ s.phase = .awaitingResponse ∧ s.rx = .data [0x06, 0x00] :: [] ∧
      ¬ [0x06#8, 0x00#8].length ≤ target s.ctxFc s.ctxExplen s.rxbuf - s.rxbuf.length) :=
  ⟨⟨waiting_inv _ _ _ _ _ (by decide) (by decide) (by decide) (by decide), blockTurn_of_nil rfl, rfl, rfl,
      by decide⟩,
    ⟨waiting_inv _ _ _ _ _ (by decide) (by decide) (by decide) (by decide), blockTurn_of_nil rfl, rfl, rfl,
      by decide⟩⟩

/-- The chunk that reaches 5 bytes of a longer frame, and one that stays below 5. -/
theorem witness_ShortChunkIsAppended :
    (let s := waiting .lowFirst 0x03 9 [0x01, 0x03, 0x04, 0x00] [.data [0x06]];
      BlockTurn s ∧ s.phase = .awaitingResponse ∧ s.rx = .data [0x06] :: [] ∧
      [0x06#8].length ≤ target s.ctxFc s.ctxExplen s.rxbuf - s.rxbuf.length ∧
      (s.rxbuf ++ [0x06]).length < target s.ctxFc s.ctxExplen (s.rxbuf ++ [0x06])) ∧
    (let s := waiting .lowFirst 0x03 9 [] [.data [0x01]];
      (s.rxbuf ++ [0x01]).length < target s.ctxFc s.ctxExplen (s.rxbuf ++ [0x01])) :=
  ⟨⟨blockTurn_of_nil rfl, rfl, rfl, by decide, by decide⟩, by decide⟩

/-- A frame that checks, and one with a foreign byte 1 that is no row. -/
theorem witness_CompleteFrameIsValidatedThenDecoded :
    (let s := waiting .lowFirst 0x03 9 [0x01, 0x03, 0x04, 0x00, 0x06] [.data [0x00, 0x05, 0xDA, 0x31]];
      BlockTurn s ∧ s.phase = .awaitingResponse ∧ s.rx = .data [0x00, 0x05, 0xDA, 0x31] :: [] ∧
      4 ≤ target s.ctxFc s.ctxExplen s.rxbuf - s.rxbuf.length ∧
      s.rxbuf ++ [0x00, 0x05, 0xDA, 0x31] = [0x01, 0x03, 0x04, 0x00, 0x06, 0x00, 0x05] ++ [0xDA, 0x31] ∧
      target s.ctxFc s.ctxExplen (s.rxbuf ++ [0x00, 0x05, 0xDA, 0x31]) = 9) ∧
    (let s := waiting .lowFirst 0x03 7 [0x01, 0x04, 0x02, 0x00, 0x01] [.data [0x78, 0xF0]];
      s.rxbuf ++ [0x78, 0xF0] = [0x01, 0x04, 0x02, 0x00, 0x01] ++ [0x78, 0xF0] ∧
      target s.ctxFc s.ctxExplen (s.rxbuf ++ [0x78, 0xF0]) = 7) :=
  ⟨⟨blockTurn_of_nil rfl, rfl, rfl, by decide, by decide, by decide⟩, by decide⟩

theorem witness_ZeroAndFailedReadsEndTheExchange :
    (let s := waiting .lowFirst 0x03 9 [] [.zero];
      BlockTurn s ∧ s.phase = .awaitingResponse ∧ s.rx = .zero :: []) ∧
    (let s := waiting .lowFirst 0x03 9 [0x01, 0x03, 0x04, 0x00, 0x06] [.fail];
      BlockTurn s ∧ s.phase = .awaitingResponse ∧ s.rx = .fail :: []) ∧
    (let s := waiting .lowFirst 0x03 9 [0x01] [.data []];
      BlockTurn s ∧ s.phase = .awaitingResponse ∧ s.rx = .data [] :: []) :=
  ⟨⟨blockTurn_of_nil rfl, rfl, rfl⟩, ⟨blockTurn_of_nil rfl, rfl, rfl⟩, ⟨blockTurn_of_nil rfl, rfl, rfl⟩⟩

/-- 4 bytes, and 5 bytes of either kind. -/
theorem witness_TargetLength :
    [0x01#8, 0x83#8, 0x02#8, 0xC0#8].length < 5 ∧
    (5 ≤ [0x01#8, 0x83#8, 0x02#8, 0xC0#8, 0xF1#8].length ∧ 0x83#8 = (0x03#8 ||| 0x80#8)) ∧
    (5 ≤ [0x01#8, 0x84#8, 0x02#8, 0xC2#8, 0xC1#8].length ∧ 0x84#8 ≠ (0x03#8 ||| 0x80#8)) := by decide

theorem witness_NothingToDoChangesNothing :
    (BlockTurn State.reset ∧ State.reset.phase = .idle ∧ State.reset.port = []) ∧
    (let s := waiting .lowFirst 0x03 9 [] [];
      BlockTurn s ∧ s.phase = .awaitingResponse ∧ s.rx = []) :=
  ⟨⟨blockTurn_of_nil rfl, rfl, rfl⟩, ⟨blockTurn_of_nil rfl, rfl, rfl⟩⟩

theorem witness_IdleBlockReadsNothing :
    ∃ t, (offered (.readCoils 0x01 0 1) 0x00 [.ok]).phase = .idle ∧ step (offered (.readCoils 0x01 0 1) 0x00 [.ok]) = .next t :=
  ⟨_, rfl, rfl⟩

theorem witness_ResetAbandonsTheExchange :
    { waiting .lowFirst 0x03 9 [0x01] [] with turns := [.host .reset] }.turns = .host .reset :: [] := rfl

/-- Each query; `parse` outside its domain on either side, 2 bytes or a code that is no function code; an over-long list. -/
theorem witness_QueriesDisturbNothing :
    (∀ q : Query, { State.reset with turns := [.host (.query q)] }.turns = .host (.query q) :: []) ∧
    (3 ≤ [0x01#8, 0x03#8, 0x00#8].length ∧ 0x03#8 ∈ [0x01#8, 0x02#8, 0x03#8, 0x04#8, 0x05#8, 0x06#8, 0x0F#8, 0x10#8]) ∧
    [0x01#8, 0x03#8].length < 3 ∧ 0x07#8 ∉ [0x01#8, 0x02#8, 0x03#8, 0x04#8, 0x05#8, 0x06#8, 0x0F#8, 0x10#8] ∧
    admitted (.writeMultiRegisters 0x01 0 (List.replicate 127 0)) = true ∧
    admitted (.writeMultiRegisters 0x01 0 (List.replicate 128 0)) = false := by
  refine ⟨fun _ => rfl, by decide, by decide, by decide, ?_, ?_⟩ <;>
    · simp only [admitted, List.length_replicate]; decide

/-- A finished exchange with a payload of one byte, read at 0 and at `RES_COUNT`, with an error, and before `DONE`. -/
theorem witness_ResultPortsFollowDone :
    (∀ p : ResultPort, { State.reset with done := true, resCount := 1, turns := [.host (.read p)] }.turns =
      .host (.read p) :: []) ∧
    (let s := { State.reset with done := true, resCount := 1 }; s.done = true ∧ s.resStatus = 0x0#4 ∧ 0 < s.resCount ∧
      s.resCount ≤ 1) ∧
    { State.reset with done := true, resStatus := 0x3#4 }.resStatus ≠ 0x0#4 ∧ State.reset.done = false :=
  ⟨fun _ => rfl, by decide, by decide, rfl⟩

theorem witness_CloseOnlyWhileNotBusy :
    (let s := { State.reset with turns := [.host .closeTransport] };
      s.turns = .host .closeTransport :: [] ∧ busy s = false) ∧
    (let s := { waiting .lowFirst 0x03 9 [] [] with turns := [.host .closeTransport] };
      s.turns = .host .closeTransport :: [] ∧ busy s = true) ∧
    { State.reset with turns := [.host .openTransport] }.turns = .host .openTransport :: [] :=
  ⟨⟨rfl, rfl⟩, ⟨rfl, rfl⟩, rfl⟩

/-- Two states that differ in `PHASE`, context and `RXBUF`, with every port. -/
theorem witness_HostReadsShowOnlyTheResult (p : ResultPort) :
    let s := { State.reset with turns := [.host (.read p)] }
    let s' := { waiting .highFirst 0x03 9 [0x01] [] with turns := [.host (.read p)] }
    s.turns = .host (.read p) :: [] ∧ s'.turns = .host (.read p) :: [] ∧ s'.done = s.done ∧
      s'.resStatus = s.resStatus ∧ s'.resInfo = s.resInfo ∧ s'.resCount = s.resCount ∧ s'.payload = s.payload ∧
      s'.phase ≠ s.phase := ⟨rfl, rfl, rfl, rfl, rfl, rfl, rfl, by simp [waiting, State.reset]⟩

/-- A sound state and its next state, the buffer one byte below its target. -/
theorem witness_StepKeepsInv :
    ∃ t, (waiting .lowFirst 0x03 9 [0x01, 0x03, 0x04, 0x00, 0x06, 0x00, 0x05, 0xDA] [.data [0x31]]).Inv ∧
      step (waiting .lowFirst 0x03 9 [0x01, 0x03, 0x04, 0x00, 0x06, 0x00, 0x05, 0xDA] [.data [0x31]]) = .next t :=
  ⟨_, waiting_inv _ _ _ _ _ (by decide) (by decide) (by decide) (by decide), rfl⟩

/-- A step that accepts a command, not a RESET, and changes the context. -/
theorem witness_ContextChangesOnlyOnAcceptance :
    ∃ t, step (offered (.readCoils 0x01 0 1) 0x00 [.ok]) = .next t ∧
      (offered (.readCoils 0x01 0 1) 0x00 [.ok]).turns.head? ≠ some (.host .reset) ∧ t.ctxFc = 0x01#8 ∧
      (offered (.readCoils 0x01 0 1) 0x00 [.ok]).ctxFc = 0x00#8 :=
  ⟨_, rfl, by decide, rfl, rfl⟩

/-- A step that writes `PAYLOAD`. -/
theorem witness_PayloadIsAllOrNothing :
    let s := waiting .lowFirst 0x02 6 [0x01, 0x02, 0x01, 0x35, 0x61] [.data [0x9F]]
    s.turns.head? ≠ some (.host .reset) ∧
      (nextOf (step s)).map (fun t => (t.payload.toList.take 1, s.payload.toList.take 1)) = some ([0x35], [0x00]) := by
  decide +kernel

/-- A read and a refused selector that change the results, and an acceptance that clears `DONE`. -/
theorem witness_ResultsAreWrittenOnlyByFinish :
    (∃ t, step (waiting .lowFirst 0x03 9 [] [.zero]) = .next t ∧
      (waiting .lowFirst 0x03 9 [] [.zero]).turns.head? ≠ some (.host .reset) ∧ t.resStatus ≠ 0x0#4) ∧
    (∃ t, step (offered (.readCoils 0x01 0 1) 0xFF [.ok]) = .next t ∧
      (offered (.readCoils 0x01 0 1) 0xFF [.ok]).turns.head? ≠ some (.host .reset) ∧ t.resStatus ≠ 0x0#4) ∧
    (∃ t, step { offered (.readCoils 0x01 0 1) 0x00 [.ok] with done := true } = .next t ∧ t.done = false) :=
  ⟨⟨_, rfl, by decide, by decide⟩, ⟨_, rfl, by decide, by decide⟩, ⟨_, rfl, rfl⟩⟩

theorem witness_OneFramePerAcceptedCommand :
    ∃ t frame, step (offered (.readCoils 0x01 0 1) 0x00 [.ok]) = .next t ∧
      t.trace = (offered (.readCoils 0x01 0 1) 0x00 [.ok]).trace ++ [.txWrite frame] := ⟨_, _, rfl, rfl⟩

/-- With a command waiting. -/
theorem witness_BusyBlockAcceptsNoCommand :
    ∃ t, step { waiting .lowFirst 0x03 9 [] [.zero] with port := [⟨.readCoils 0x01 0 1, 0x00⟩] } = .next t ∧
      (waiting .lowFirst 0x03 9 [] [.zero]).phase = .awaitingResponse := ⟨_, rfl, rfl⟩

/-- The least that is asked: as many answers as bytes are missing. -/
theorem witness_ExchangesEnd :
    let s := waiting .lowFirst 0x03 9 [0x01, 0x03, 0x04, 0x00, 0x06] [.data [0x00], .data [0x05], .data [0xDA], .data [0x31]]
    s.Inv ∧ s.phase = .awaitingResponse ∧ s.turns = [] ∧ s.ctxExplen - s.rxbuf.length ≤ s.rx.length :=
  ⟨waiting_inv _ _ _ _ _ (by decide) (by decide) (by decide) (by decide), rfl, rfl, by decide⟩

/-- V66: five chunks. -/
theorem witness_ChunkingDoesNotChangeTheResult :
    let chunks : List Bytes := [[0x01, 0x03], [0x04, 0x00], [0x06], [0x00, 0x05, 0xDA], [0x31]]
    let s := waiting .lowFirst 0x03 9 [] (chunks.map RxOutcome.data ++ [.zero])
    s.Inv ∧ s.phase = .awaitingResponse ∧ s.turns = [] ∧ (∀ ch ∈ chunks, ch ≠ []) ∧
      s.rx = chunks.map RxOutcome.data ++ [.zero] ∧
      target s.ctxFc s.ctxExplen (s.rxbuf ++ chunks.flatten) = (s.rxbuf ++ chunks.flatten).length :=
  ⟨waiting_inv _ _ _ _ _ (by decide) (by decide) (by decide) (by decide), rfl, rfl, by decide, rfl, by decide⟩

/-- A read that ends an exchange, and a RESET that does. -/
theorem witness_OnlyReadsAndResetEndAnExchange :
    (∃ t, (waiting .lowFirst 0x03 9 [] [.zero]).phase = .awaitingResponse ∧
      step (waiting .lowFirst 0x03 9 [] [.zero]) = .next t ∧ t.phase = .idle) ∧
    (∃ t, step { waiting .lowFirst 0x03 9 [] [] with turns := [.host .reset] } = .next t ∧ t.phase = .idle) :=
  ⟨⟨_, rfl, rfl, rfl⟩, ⟨_, rfl, rfl⟩⟩

end Sys2Proof.Tests
end

