-- ==== Sys2Proof/Proofs/Selector.lean ====
section
/-! The invalid selector (R36, R201): the acceptance step ends with an error before any I/O. -/

namespace Sys2Proof.Machine

/-- R201: with no selected order an acceptance step is error entry; nothing is written and no context is recorded. -/
theorem accept_of_selectedOrder_none {sel : Byte} (req : Req) (s : State) (h : selectedOrder sel = none) :
    accept req sel s = raise .configurationError 0x00#8 { s with done := false } := by
  simp only [accept, h]

/-- Error entry is the end of an exchange with an empty payload (R251), whatever the acceptance step did to `DONE`. -/
theorem raise_eq_ended (e : Status) (info : Byte) (done : Bool) (s : State) :
    raise e info { s with done := done } = Claims.ended (statusCode e) info 0 s := by
  rw [raise_eq, Claims.ended]

/-- Settles O24: an admitted command in an idle block is accepted, and an invalid selector selects no order, so the
acceptance step is error entry on the state it met. -/
theorem invalidSelectorEndsTheCommand : Obligations.InvalidSelectorEndsTheCommand := by
  refine ⟨selectedOrder_selectorOf .lowFirst, selectedOrder_selectorOf .highFirst, ?_⟩
  intro c s hadm hidle h0 h1
  have hnone : selectedOrder c.sel = none := selectedOrder_none h0 h1
  calc exec (instrOf c) s
      = exchange c.req c.sel s := exec_instrOf c s
    _ = .next (accept c.req c.sel s) := exchange_idle hadm hidle
    _ = .next (raise .configurationError 0x00#8 { s with done := false }) := by
        rw [accept_of_selectedOrder_none c.req s hnone]
    _ = .next (Claims.ended 0x1#4 0x00#8 0 s) := by
        rw [raise_eq_ended, statusCode]

end Sys2Proof.Machine
end

