-- ==== Sys2Proof/Proofs/ValueBytes.lean ====
section
/-! Register values as bytes (R57): where the two bytes of each value stand in the payload. -/

namespace Sys2Proof.Machine

@[simp] theorem valueBytes_nil : valueBytes [] = [] := rfl

@[simp] theorem valueBytes_cons (w : Word) (ws : List Word) :
    valueBytes (w :: ws) = hi8 w :: lo8 w :: valueBytes ws := rfl

/-- Past the end both sides are the default 0, so no bound on `k` is needed. -/
theorem getD_valueBytes (values : List Word) (k : Nat) :
    (valueBytes values).getD (2 * k) 0#8 = hi8 (values.getD k 0#16) ∧
    (valueBytes values).getD (2 * k + 1) 0#8 = lo8 (values.getD k 0#16) := by
  induction values generalizing k with
  | nil => simp only [valueBytes_nil, List.getD_nil]; decide
  | cons w ws ih =>
    cases k with
    | zero => exact ⟨rfl, rfl⟩
    | succ k => simpa only [valueBytes_cons, Nat.mul_succ, List.getD_cons_succ] using ih k

/-- Settles O11: byte `2k` is the high and byte `2k + 1` the low byte of value `k`, and a word is `256 * hi8 + lo8`. -/
theorem registerValuesAreBigEndian : Obligations.RegisterValuesAreBigEndian := by
  intro values
  refine ⟨length_valueBytes values, fun k _ => ?_⟩
  obtain ⟨hhi, hlo⟩ := getD_valueBytes values k
  rw [hhi, hlo, ← ofBe16_toNat, ofBe16_hi8_lo8]

end Sys2Proof.Machine
end

