-- ==== Sys2Proof/Proofs/Checksum.lean ====
section
/-! The checksum (R102, R105, R106, R108): the fold grown by one byte, and the two checksum bytes as numbers. -/

namespace Sys2Proof.Machine

@[simp] theorem crc16_nil : crc16 [] = 0xFFFF#16 := rfl

/-- R102: a byte more is one step of the fold more, with nothing done to the value after the last byte. -/
theorem crc16_append_singleton (bs : Bytes) (b : Byte) : crc16 (bs ++ [b]) = crcUpdate (crc16 bs) b := by
  rw [crc16, crcFrom_append, crcFrom_cons, crcFrom_nil, crc16]

theorem place_lowFirst_toNat (c : Word) :
    (place c .lowFirst).map BitVec.toNat = [c.toNat % 256, c.toNat / 256] := by
  rw [← lo8_toNat, ← hi8_toNat]; rfl

theorem place_highFirst_toNat (c : Word) :
    (place c .highFirst).map BitVec.toNat = [c.toNat / 256, c.toNat % 256] := by
  rw [← lo8_toNat, ← hi8_toNat]; rfl

theorem unplace_lowFirst_toNat (b0 b1 : Byte) :
    (unplace b0 b1 .lowFirst).toNat = b1.toNat * 256 + b0.toNat := by
  rw [unplace, ofBe16_toNat, Nat.mul_comm]

theorem unplace_highFirst_toNat (b0 b1 : Byte) :
    (unplace b0 b1 .highFirst).toNat = b0.toNat * 256 + b1.toNat := by
  rw [unplace, ofBe16_toNat, Nat.mul_comm]

/-- R108: a frame written as body and two bytes passes the check exactly when the two bytes read as the body's
checksum. -/
theorem check_append_eq_true_iff (body : Bytes) (b0 b1 : Byte) (ord : ChecksumOrder) :
    check (body ++ [b0, b1]) ord = true ↔ unplace b0 b1 ord = crc16 body := by
  rw [check_append, decide_eq_true_iff]

/-- Settles O2: the fold starts at 0xFFFF, and appending a byte is one more `crcUpdate`, which makes the one table
access. -/
theorem crcFoldsOneTableEntryPerByte : Obligations.CrcFoldsOneTableEntryPerByte := by
  refine ⟨crc16_nil, fun bs b => ?_⟩
  rw [crc16_append_singleton, crcUpdate, lo8_eq_setWidth]

/-- Settles O4: the bytes placed and the word read, in each order, and what `check` compares. -/
theorem checksumPlacement : Obligations.ChecksumPlacement :=
  ⟨place_lowFirst_toNat, place_highFirst_toNat, unplace_lowFirst_toNat, unplace_highFirst_toNat,
    check_append_eq_true_iff⟩

end Sys2Proof.Machine
end

