-- ==== Sys2Proof/Proofs/RequestFrames.lean ====
section
/-! The nine request formats (R73 to R77, R120) byte by byte, and the expected reply lengths (R122, R123, R142). -/

namespace Sys2Proof.Machine

/-- R55: a word is the number its big-endian bytes write. -/
theorem toNat_eq_hi8_lo8 (w : Word) : w.toNat = 256 * (hi8 w).toNat + (lo8 w).toNat := by
  rw [← ofBe16_toNat, ofBe16_hi8_lo8]

/-- R89: a count that fits 16 bits is the number its field's bytes write. -/
theorem eq_hi8_lo8_word16 {n : Nat} (h : n < 65536) :
    n = 256 * (hi8 (word16 n)).toNat + (lo8 (word16 n)).toNat := by
  rw [← toNat_eq_hi8_lo8, word16_toNat n h]

/-- R75, R76: a byte count that fits one byte is the number the byte writes. -/
theorem toNat_byteCount {n : Nat} (h : n < 256) : (BitVec.ofNat 8 n).toNat = n := by
  rw [BitVec.toNat_ofNat, Nat.mod_eq_of_lt h]

/-- R141: the value's high byte is the coil's state. -/
theorem hi8_coilValue (on : Bool) : hi8 (coilValue on) = if on then 0xFF#8 else 0x00#8 := by
  cases on <;> rfl

@[simp] theorem lo8_coilValue (on : Bool) : lo8 (coilValue on) = 0x00#8 := by
  cases on <;> rfl

theorem requestHeader_eq (addr fc : Byte) (offset field : Word) :
    requestHeader addr fc offset field = [addr, fc, hi8 offset, lo8 offset, hi8 field, lo8 field] := rfl

/-- R202: the frame is the body and the placed checksum of all of it. -/
theorem serialize_of_requestBody {req : Req} {body : Bytes} (h : requestBody req = body) (ord : ChecksumOrder) :
    serialize req ord = body ++ place (crc16 body) ord := by
  rw [serialize, h, sealFrame]

/-- R73, R74: the five kinds whose body is the header alone, the field being the operand itself. -/
theorem requestBody_of_headerOnly {fc : Byte} {mk : Byte → Word → Word → Req}
    (h : (fc, mk) ∈ [(0x01#8, Req.readCoils), (0x02#8, Req.readInputs), (0x03#8, Req.readHoldingRegisters),
      (0x04#8, Req.readInputRegisters), (0x06#8, Req.writeSingleRegister)])
    (addr : Byte) (offset field : Word) :
    requestBody (mk addr offset field) = [addr, fc, hi8 offset, lo8 offset, hi8 field, lo8 field] := by
  simp only [List.mem_cons, Prod.mk.injEq, List.not_mem_nil, or_false] at h
  obtain ⟨rfl, rfl⟩ | ⟨rfl, rfl⟩ | ⟨rfl, rfl⟩ | ⟨rfl, rfl⟩ | ⟨rfl, rfl⟩ := h <;> exact requestHeader_eq ..

theorem requestBody_writeSingleCoil (addr : Byte) (offset : Word) (on : Bool) :
    requestBody (.writeSingleCoil addr offset on) =
      [addr, 0x05#8, hi8 offset, lo8 offset, hi8 (coilValue on), 0x00#8] := by
  rw [requestBody, requestHeader_eq, lo8_coilValue]

theorem requestBody_writeMultiCoils (addr : Byte) (offset : Word) (coils : List Bool) :
    requestBody (.writeMultiCoils addr offset coils) =
      [addr, 0x0F#8, hi8 offset, lo8 offset, hi8 (word16 coils.length), lo8 (word16 coils.length),
        BitVec.ofNat 8 (ceil8 coils.length)] ++ pack coils := rfl

theorem requestBody_writeMultiRegisters (addr : Byte) (offset : Word) (values : List Word) :
    requestBody (.writeMultiRegisters addr offset values) =
      [addr, 0x10#8, hi8 offset, lo8 offset, hi8 (word16 values.length), lo8 (word16 values.length),
        BitVec.ofNat 8 (2 * values.length)] ++ valueBytes values := rfl

theorem requestBody_writeMultiRegistersVendor (addr : Byte) (offset : Word) (values : List Word) :
    requestBody (.writeMultiRegistersVendor addr offset values) =
      [addr, 0x10#8, hi8 offset, lo8 offset, hi8 (word16 values.length), lo8 (word16 values.length),
        hi8 (word16 (2 * values.length)), lo8 (word16 (2 * values.length))] ++ valueBytes values := rfl

/-- Settles O10: each body byte by byte, sealed; the limits are what makes the counts fit their fields. -/
theorem requestFramesAreBitExact : Obligations.RequestFramesAreBitExact := by
  intro ord addr offset
  have hoffset := toNat_eq_hi8_lo8 offset
  refine ⟨?headerOnly, ?singleCoil, ?multiCoils, ?multiRegisters, ?vendor⟩
  case headerOnly =>
    intro fc mk hmem field
    exact ⟨_, _, _, _, hoffset, toNat_eq_hi8_lo8 field,
      serialize_of_requestBody (requestBody_of_headerOnly hmem addr offset field) ord⟩
  case singleCoil =>
    intro on
    exact ⟨_, _, _, hoffset, hi8_coilValue on,
      serialize_of_requestBody (requestBody_writeSingleCoil addr offset on) ord⟩
  case multiCoils =>
    intro coils hlen
    have hbyte : ceil8 coils.length < 256 := by rw [ceil8]; omega
    exact ⟨_, _, _, _, _, hoffset, eq_hi8_lo8_word16 (by omega), toNat_byteCount hbyte,
      serialize_of_requestBody (requestBody_writeMultiCoils addr offset coils) ord⟩
  case multiRegisters =>
    intro values hlen
    exact ⟨_, _, _, _, _, hoffset, eq_hi8_lo8_word16 (by omega), toNat_byteCount (by omega),
      serialize_of_requestBody (requestBody_writeMultiRegisters addr offset values) ord⟩
  case vendor =>
    intro values hlen
    exact ⟨_, _, _, _, _, _, hoffset, eq_hi8_lo8_word16 (by omega), eq_hi8_lo8_word16 (by omega),
      serialize_of_requestBody (requestBody_writeMultiRegistersVendor addr offset values) ord⟩

/-- Settles O14: `expectedResponseLength` kind by kind, in the order of the three groups. -/
theorem expectedReplyLengths : Obligations.ExpectedReplyLengths := by
  intro addr offset count on coils values
  refine ⟨?coilReads, ?registerReads, ?writes⟩
  case coilReads =>
    rw [List.forall_mem_cons, List.forall_mem_singleton]
    exact ⟨rfl, rfl⟩
  case registerReads =>
    rw [List.forall_mem_cons, List.forall_mem_singleton]
    exact ⟨rfl, rfl⟩
  case writes =>
    simp only [List.forall_mem_cons]
    exact ⟨rfl, rfl, rfl, rfl, rfl, List.forall_mem_nil _⟩

end Sys2Proof.Machine
end

