-- ==== Sys2Proof/Proofs/WriteCodec.lean ====
section
/-! The write codec's packing (R140) and length refusal (R148). -/

namespace Sys2Proof.Machine

/-- R140: within its length the bitmap is the packed bytes in their order. -/
theorem getD_pack (coils : List Bool) {k : Nat} (hk : k < ceil8 coils.length) :
    (pack coils).getD k 0#8 = packByte coils k := by
  rw [List.getD_eq_getElem _ _ (by rwa [length_pack])]
  simp only [pack, List.getElem_map, List.getElem_range]

/-- Settles O9: byte `k` of the bitmap is `packByte coils k`, whose bits are the coils from `8k` up. -/
theorem coilsArePackedLsbFirst : Obligations.CoilsArePackedLsbFirst := by
  refine fun coils => ⟨length_pack coils, fun k hk j hj => ?_⟩
  rw [getD_pack coils hk, packByte_bit coils k j hj]

/-- R148: admission alone decides the refusal; an admitted command is accepted or held, whatever the phase. -/
theorem exchange_eq_refused_iff (req : Req) (sel : Byte) (s : State) :
    exchange req sel s = .refused .listTooLong ↔ admitted req = false := by
  cases hadm : admitted req with
  | false => simp [exchange, hadm]
  | true =>
    cases hphase : s.phase with
    | idle => simp [exchange_idle hadm hphase]
    | awaitingResponse => simp [exchange_busy hadm hphase]

/-- R148: a request row is refused exactly when its list is not admitted. -/
theorem exec_instrOf_eq_refused_iff (c : Command) (s : State) :
    exec (instrOf c) s = .refused .listTooLong ↔ admitted c.req = false := by
  rw [exec_instrOf, exchange_eq_refused_iff]

theorem admitted_writeMultiCoils_eq_false (addr : Byte) (offset : Word) (coils : List Bool) :
    admitted (.writeMultiCoils addr offset coils) = false ↔ 2040 < coils.length := by
  rw [admitted, decide_eq_false_iff_not, Nat.not_le]

theorem admitted_writeMultiRegisters_eq_false (addr : Byte) (offset : Word) (values : List Word) :
    admitted (.writeMultiRegisters addr offset values) = false ↔ 127 < values.length := by
  rw [admitted, decide_eq_false_iff_not, Nat.not_le]

theorem admitted_writeMultiRegistersVendor_eq_false (addr : Byte) (offset : Word) (values : List Word) :
    admitted (.writeMultiRegistersVendor addr offset values) = false ↔ 32767 < values.length := by
  rw [admitted, decide_eq_false_iff_not, Nat.not_le]

/-- Settles O27: each multi write is refused exactly when its list is not admitted, and admission is the limit. -/
theorem oversizeListsAreRefused : Obligations.OversizeListsAreRefused := fun addr offset coils values sel s =>
  ⟨(exec_instrOf_eq_refused_iff ⟨.writeMultiCoils addr offset coils, sel⟩ s).trans
      (admitted_writeMultiCoils_eq_false addr offset coils),
    (exec_instrOf_eq_refused_iff ⟨.writeMultiRegisters addr offset values, sel⟩ s).trans
      (admitted_writeMultiRegisters_eq_false addr offset values),
    (exec_instrOf_eq_refused_iff ⟨.writeMultiRegistersVendor addr offset values, sel⟩ s).trans
      (admitted_writeMultiRegistersVendor_eq_false addr offset values)⟩

end Sys2Proof.Machine
end

