-- ==== Sys2Proof/Proofs/ExceptionCodes.lean ====
section
/-! The slave-exception mapping (R172): the closed table of codes and kinds, and the kind recovered from `RES_INFO`. -/

namespace Sys2Proof.Machine

/-- With no key twice, a table gives a key's value exactly when the pair is one of its rows. -/
theorem lookup_eq_some_iff_mem {α β : Type} [BEq α] [LawfulBEq α] {table : List (α × β)}
    (hnodup : (table.map Prod.fst).Nodup) (key : α) (value : β) :
    table.lookup key = some value ↔ (key, value) ∈ table := by
  rw [List.lookup_eq_some_iff]
  constructor
  · rintro ⟨before, after, rfl, -⟩
    exact List.mem_append_right before List.mem_cons_self
  · intro hmem
    obtain ⟨before, after, rfl⟩ := List.append_of_mem hmem
    rw [List.map_append, List.map_cons, List.nodup_middle, List.nodup_cons] at hnodup
    obtain ⟨hunique, -⟩ := hnodup
    refine ⟨before, after, rfl, fun row hrow => bne_iff_ne.mpr ?_⟩
    rintro rfl
    have hkey : row.1 ∈ before.map Prod.fst := List.mem_map_of_mem hrow
    exact hunique (List.mem_append_left _ hkey)

/-- R172: the kind of a code is the table's, whose eight codes are distinct. -/
theorem exceptionKind_eq_some_iff (code : Byte) (kind : ExceptionKind) :
    exceptionKind code = some kind ↔ (code, kind) ∈ exceptionTable :=
  lookup_eq_some_iff_mem (by decide) code kind

/-- R172: the mapped codes as numbers, 1 to 6, 10 and 11. -/
theorem exceptionKind_isSome_iff_toNat (code : Byte) : (exceptionKind code).isSome = true ↔
    (1 ≤ code.toNat ∧ code.toNat ≤ 6) ∨ code.toNat = 10 ∨ code.toNat = 11 := by
  rw [exceptionKind_isSome, decide_eq_true_iff]
  simp only [List.mem_cons, List.not_mem_nil, or_false, ← BitVec.toNat_inj, BitVec.toNat_ofNat, Nat.reducePow,
    Nat.reduceMod]
  omega

/-- R172: the stored detail byte is the code, so the table gives its kind again; an unmapped code has none. -/
theorem resultKind_finish_decodeException (code : Byte) (s : State) :
    resultKind (finish (decodeException code) s) = exceptionKind code := by
  rw [resultKind, finish_resStatus, finish_resInfo, decodeException_eq]
  cases hkind : exceptionKind code with
  | some kind => exact if_pos rfl
  | none => exact if_neg (show statusCode .unknownSlaveException ≠ statusCode .slaveException by decide)

/-- Settles O18: the table's rows, the triple of a mapped and of an unmapped code, and the kind after `finish`. -/
theorem exceptionCodeMapping : Obligations.ExceptionCodeMapping := by
  refine ⟨exceptionKind_eq_some_iff, fun code => ?_, resultKind_finish_decodeException⟩
  simp only [decodeException_eq, exceptionKind_isSome_iff_toNat]
  split <;> rfl

end Sys2Proof.Machine
end

