-- ==== Sys2Proof/Proofs/ResponseParser.lean ====
section
/-! The Response Parser's decision on byte 1 (R171, R173 to R178), an equation per branch, and what it does not read
(R179). -/

namespace Sys2Proof.Machine

/-- R174: the read codes. -/
theorem isRead_iff (fc : Byte) : isRead fc = true ↔ fc ∈ [0x01#8, 0x02#8, 0x03#8, 0x04#8] := by
  simp [isRead, or_assoc]

/-- R174: the write codes are not read codes. -/
theorem isRead_of_mem_writeCodes {fc : Byte} (h : fc ∈ [0x05#8, 0x06#8, 0x0F#8, 0x10#8]) : isRead fc = false := by
  revert fc; decide

/-- R81: bit 7 of a function code is clear, so its exception form is another byte. -/
theorem exceptionForm_ne {fc : Byte} (h : fc ∈ functionCodes) : (fc ||| 0x80#8) ≠ fc := by
  revert fc; decide

theorem mem_functionCodes_of_mem_writeCodes {fc : Byte} (h : fc ∈ [0x05#8, 0x06#8, 0x0F#8, 0x10#8]) :
    fc ∈ functionCodes := by
  revert fc; decide

/-- R175: the data bytes are there, so they are the payload. -/
theorem parseRead_of_fits {a b1 bc : Byte} {rest : Bytes} (h : bc.toNat ≤ rest.length) :
    parseRead (a :: b1 :: bc :: rest) = ⟨.ok, 0x00#8, rest.take bc.toNat⟩ :=
  if_neg (show ¬ rest.length + 3 < 3 + bc.toNat by omega)

/-- R176: the byte count runs past the frame. -/
theorem parseRead_of_short {a b1 bc : Byte} {rest : Bytes} (h : rest.length < bc.toNat) :
    parseRead (a :: b1 :: bc :: rest) = ⟨.lengthError, bc, []⟩ :=
  if_pos (show rest.length + 3 < 3 + bc.toNat by omega)

section
variable {raw : Bytes} {fc : Byte}

/-- R171, R174: the requested read code. -/
theorem parse_of_read (hb1 : raw.getD 1 0#8 = fc) (hread : isRead fc = true) : parse raw fc = parseRead raw := by
  simp only [parse, if_pos hb1, if_pos hread]

/-- R177: the requested write code; nothing after byte 1 is examined. -/
theorem parse_of_write (hb1 : raw.getD 1 0#8 = fc) (hfc : fc ∈ [0x05#8, 0x06#8, 0x0F#8, 0x10#8]) :
    parse raw fc = ⟨.ok, 0x00#8, []⟩ := by
  simp only [parse, if_pos hb1, isRead_of_mem_writeCodes hfc, Bool.false_eq_true, if_false]

/-- R173: the exception form of the requested code, which is not the code itself. -/
theorem parse_of_exception (hb1 : raw.getD 1 0#8 = (fc ||| 0x80#8)) (hfc : fc ∈ functionCodes) :
    parse raw fc = decodeException (raw.getD 2 0#8) := by
  simp only [parse, hb1, if_neg (exceptionForm_ne hfc), if_true]

/-- R178: any other byte 1, reported as it is. -/
theorem parse_of_foreign (hb1 : raw.getD 1 0#8 ≠ fc) (hexc : raw.getD 1 0#8 ≠ (fc ||| 0x80#8)) :
    parse raw fc = ⟨.protocolError, raw.getD 1 0#8, []⟩ := by
  simp only [parse, if_neg hb1, if_neg hexc]

end

/-- R179: the parser reads from byte 1 on, and the length. -/
theorem parse_cons_congr (a a' : Byte) (rest : Bytes) (fc : Byte) : parse (a :: rest) fc = parse (a' :: rest) fc := rfl

/-- Settles O19: the branches of the decision rule, a read's by whether its byte count fits. -/
theorem parseDecisionRule : Obligations.ParseDecisionRule := by
  intro a b1 c rest fc hfc
  refine ⟨?readFits, ?readShort, ?write, ?exception, ?foreign⟩
  case readFits =>
    intro hb1 hread hfits
    rw [parse_of_read (raw := a :: b1 :: c :: rest) hb1 ((isRead_iff fc).mpr hread), parseRead_of_fits hfits]
  case readShort =>
    intro hb1 hread hshort
    rw [parse_of_read (raw := a :: b1 :: c :: rest) hb1 ((isRead_iff fc).mpr hread), parseRead_of_short hshort]
  case write => exact fun hb1 hwrite => parse_of_write hb1 hwrite
  case exception => exact fun hb1 => parse_of_exception hb1 hfc
  case foreign => exact fun hb1 hexc => parse_of_foreign hb1 hexc

end Sys2Proof.Machine
end

