-- ==== Sys2Proof/Proofs/ValidReplies.lean ====
section
/-! A complete frame whose checksum matches (R210 to R212): its body is parsed and the result stored. The address byte is
not examined (R179), and the reply to a write ends with OK (R177). -/

namespace Sys2Proof.Machine

/-- R211: the two checksum bytes placed after their body pass the check. -/
theorem check_of_place {body : Bytes} {crcA crcB : Byte} {ord : ChecksumOrder}
    (h : [crcA, crcB] = place (crc16 body) ord) : check (body ++ [crcA, crcB]) ord = true :=
  (check_append_eq_true_iff body crcA crcB ord).mpr (unplace_place _ ord crcA crcB h.symm)

/-- R212: a complete frame that passes the check ends with what the parser makes of its body. -/
theorem completeFrame_of_check {body : Bytes} {crcA crcB : Byte} {s : State}
    (h : check (body ++ [crcA, crcB]) s.ctxOrder = true) :
    completeFrame { s with rxbuf := body ++ [crcA, crcB] } =
      { finish (parse body s.ctxFc) s with rxbuf := body ++ [crcA, crcB] } := by
  have hbody : (body ++ [crcA, crcB]).take ((body ++ [crcA, crcB]).length - 2) = body := by simp
  rw [completeFrame_eq, frameResult, if_pos h, hbody]
  rfl

/-- A reply frame at its target that passes the check ends with what the parser makes of its body. -/
theorem acceptReply_of_check {body : Bytes} {crcA crcB : Byte} {s : State} (hphase : s.phase = .awaitingResponse)
    (htarget : target s.ctxFc s.ctxExplen (body ++ [crcA, crcB]) = (body ++ [crcA, crcB]).length)
    (hcheck : check (body ++ [crcA, crcB]) s.ctxOrder = true) :
    acceptReply (body ++ [crcA, crcB]) s =
      .next { finish (parse body s.ctxFc) s with rxbuf := body ++ [crcA, crcB] } := by
  rw [acceptReply_complete hphase htarget, completeFrame_of_check hcheck]

/-- R214: a result without data ends the exchange with `PAYLOAD` as it was. -/
theorem finish_of_no_data (e : Status) (info : Byte) (s : State) :
    finish ⟨e, info, []⟩ s = Claims.ended (statusCode e) info 0 s :=
  raise_eq_ended e info s.done s

/-- Settles O20: both frames end with the parse of their bodies, which is the same. -/
theorem addressByteIsNotExamined : Obligations.AddressByteIsNotExamined := by
  intro s a a' rest x y x' y' _ hcheck hcheck'
  rw [completeFrame_of_check hcheck, completeFrame_of_check hcheck', parse_cons_congr a' a]

/-- Every write reply row's meaning is the arrival of its frame (R79). -/
theorem exec_of_writeReply {fc : Byte} {mk : Byte → Word → Word → Byte → Byte → Instr}
    (h : (fc, mk) ∈ [(0x05#8, Instr.replyNormal05), (0x06#8, Instr.replyNormal06), (0x0F#8, Instr.replyNormal0F),
      (0x10#8, Instr.replyNormal10)])
    (addr : Byte) (echo1 echo2 : Word) (crcA crcB : Byte) (s : State) :
    exec (mk addr echo1 echo2 crcA crcB) s = acceptReply (writeReplyFrame fc addr echo1 echo2 crcA crcB) s := by
  simp only [List.mem_cons, Prod.mk.injEq, List.not_mem_nil, or_false] at h
  obtain ⟨rfl, rfl⟩ | ⟨rfl, rfl⟩ | ⟨rfl, rfl⟩ | ⟨rfl, rfl⟩ := h <;> exact exec_reply rfl rfl s

/-- R205: the reply to a write is complete at the expected length, since byte 1 is not the exception form. -/
theorem target_writeReplyFrame {fc : Byte} (hfc : fc ∈ functionCodes) (explen : Nat) (addr : Byte) (echo1 echo2 : Word)
    (crcA crcB : Byte) : target fc explen (writeReplyFrame fc addr echo1 echo2 crcA crcB) = explen :=
  target_of_normal (Nat.le_add_left 5 3) (exceptionForm_ne hfc).symm

/-- Settles O30: the eight bytes are the frame the block waits for, it passes the check, and byte 1 is the requested
write code. -/
theorem writeRepliesAreOk : Obligations.WriteRepliesAreOk := by
  intro fc mk hmem addr echo1 echo2 crcA crcB s hphase rfl hexplen hcrc
  have hwrite : s.ctxFc ∈ [0x05#8, 0x06#8, 0x0F#8, 0x10#8] := List.mem_map_of_mem (f := Prod.fst) hmem
  have htarget : target s.ctxFc s.ctxExplen (writeReplyFrame s.ctxFc addr echo1 echo2 crcA crcB) = 8 :=
    (target_writeReplyFrame (mem_functionCodes_of_mem_writeCodes hwrite) ..).trans hexplen
  have hparse : parse ([addr, s.ctxFc] ++ be16 echo1 ++ be16 echo2) s.ctxFc = ⟨.ok, 0x00#8, []⟩ :=
    parse_of_write rfl hwrite
  calc exec (mk addr echo1 echo2 crcA crcB) s
      = acceptReply (writeReplyFrame s.ctxFc addr echo1 echo2 crcA crcB) s := exec_of_writeReply hmem ..
    _ = .next { finish (parse ([addr, s.ctxFc] ++ be16 echo1 ++ be16 echo2) s.ctxFc) s with
          rxbuf := [addr, s.ctxFc] ++ be16 echo1 ++ be16 echo2 ++ [crcA, crcB] } :=
        acceptReply_of_check hphase htarget (check_of_place hcrc)
    _ = .next { Claims.ended 0x0#4 0x00#8 0 s with
          rxbuf := [addr, s.ctxFc] ++ be16 echo1 ++ be16 echo2 ++ [crcA, crcB] } := by
        rw [hparse, finish_of_no_data, statusCode]

end Sys2Proof.Machine
end

