-- ==== Sys2Proof/Proofs/WriteFailure.lean ====
section
/-! The write phase (R203): a `TxWrite` that fails ends the exchange before any context is recorded. -/

namespace Sys2Proof.Machine

/-- R41: the outcome the statements speak of is the one the write phase draws. -/
theorem txOutcome_of_writeDraws {s : State} {o : TxOutcome} (h : Claims.WriteDraws s o) : txOutcome s = o :=
  (txOutcome_eq s).trans h

/-- R203: of the three ends of an acceptance step, the one with a valid selector and a failed write. -/
theorem accept_of_write_fails {sel : Byte} {ord : ChecksumOrder} (req : Req) {s : State}
    (hsel : selectedOrder sel = some ord) (hfail : txOutcome s = .fail) :
    accept req sel s =
      raise .transportError 0x00#8 (txAdvance (record (.txWrite (serialize req ord)) { s with done := false })) := by
  obtain ⟨hnone, -⟩ | ⟨ord', hsel', -, haccept⟩ | ⟨-, -, hok, -⟩ := accept_cases req sel s
  case inl => rw [hsel] at hnone; cases hnone
  case inr.inl =>
    obtain rfl : ord = ord' := Option.some.inj (hsel.symm.trans hsel')
    exact haccept
  case inr.inr => rw [hfail] at hok; cases hok

/-- Settles O25: an admitted command in an idle block is accepted, its selector is valid and its write fails, so the
acceptance step is error entry after the frame is offered and the outcome drawn. -/
theorem writeFailureEndsTheCommand : Obligations.WriteFailureEndsTheCommand := by
  intro c ord s hadm hidle hsel hfail
  calc exec (instrOf c) s
      = exchange c.req c.sel s := exec_instrOf c s
    _ = .next (accept c.req c.sel s) := exchange_idle hadm hidle
    _ = .next (raise .transportError 0x00#8
          (txAdvance (record (.txWrite (serialize c.req ord)) { s with done := false }))) := by
        rw [accept_of_write_fails c.req hsel (txOutcome_of_writeDraws hfail)]
    _ = _ := by
        rw [raise_eq, txAdvance_eq]
        rfl

end Sys2Proof.Machine
end

