-- ==== Sys2Proof/Proofs/FrameCompletion.lean ====
section
/-! The read loop's target (R205), and a buffer that has reached it: the checksum decides whether the body is parsed
(R210 to R212). -/

namespace Sys2Proof.Machine

/-- Settles O41: the three cases of the target, by the length and byte 1. -/
theorem targetLength : Obligations.TargetLength := by
  intro fc explen buf
  refine ⟨target_of_short, ?exception, ?normal⟩
  case exception =>
    rintro a b1 rest rfl - hb1
    exact target_of_exception hb1
  case normal =>
    rintro a b1 rest rfl hlen hb1
    exact target_of_normal hlen hb1

/-- R211, R212: the last two bytes decide between the parser's result and CHECKSUM_ERROR. -/
theorem frameResult_append (body : Bytes) (crcA crcB : Byte) (ord : ChecksumOrder) (fc : Byte) :
    frameResult (body ++ [crcA, crcB]) ord fc =
      if unplace crcA crcB ord = crc16 body then parse body fc else ⟨.checksumError, 0x00#8, []⟩ := by
  have hbody : (body ++ [crcA, crcB]).take ((body ++ [crcA, crcB]).length - 2) = body := by simp
  simp only [frameResult, hbody, check_append_eq_true_iff]

/-- Settles O32: the frame of a reply row stands at its target, so it is complete; its check fails. -/
theorem badChecksumEndsTheExchange : Obligations.BadChecksumEndsTheExchange := by
  intro i body crcA crcB fc s hcontext hencode hphase htarget hbad
  have hcomplete : target s.ctxFc s.ctxExplen (body ++ [crcA, crcB]) = (body ++ [crcA, crcB]).length := by
    rw [htarget, List.length_append, List.length_cons, List.length_singleton]
  calc exec i s
      = acceptReply (body ++ [crcA, crcB]) s := exec_reply hcontext hencode s
    _ = .next (completeFrame { s with rxbuf := body ++ [crcA, crcB] }) := acceptReply_complete hphase hcomplete
    _ = .next (finish ⟨.checksumError, 0x00#8, []⟩ { s with rxbuf := body ++ [crcA, crcB] }) := by
        rw [completeFrame_eq, frameResult_append, if_neg hbad]
    _ = _ := by
        rw [finish_of_no_data]
        rfl

/-- R206: a read that asks for no less than the transport holds takes all of it. -/
theorem blockStep_of_le_cap {s : State} {bs : Bytes} {rest : List RxOutcome} (hphase : s.phase = .awaitingResponse)
    (hrx : s.rx = .data bs :: rest) (hbs : bs ≠ []) (hcap : bs.length ≤ readCap s) :
    blockStep s = outcomeOf (rxAppend bs (record (.rxRead (readCap s)) { s with rx := rest })) := by
  rw [blockStep_data hphase hrx hbs, List.take_of_length_le hcap, List.drop_of_length_le hcap, leaveInTransport_nil]

/-- Settles O39: the read takes the whole chunk, the buffer meets its target, and the complete frame is validated and
decoded in that step, be it a row of the opcode table or not. -/
theorem completeFrameIsValidatedThenDecoded : Obligations.CompleteFrameIsValidatedThenDecoded := by
  intro s bs body crcA crcB rest hturn hphase hrx hbs cap hcap hbuf htarget r
  have hresult : frameResult (s.rxbuf ++ bs) s.ctxOrder s.ctxFc = r := by rw [hbuf, frameResult_append]
  calc step s
      = blockStep { s with turns := s.turns.tail } := step_block hturn
    _ = outcomeOf (rxAppend bs (Claims.afterRead cap rest s)) := blockStep_of_le_cap hphase hrx hbs hcap
    _ = .next (completeFrame { Claims.afterRead cap rest s with rxbuf := s.rxbuf ++ bs }) :=
        rxAppend_complete hphase htarget
    _ = .next (finish r { Claims.afterRead cap rest s with rxbuf := s.rxbuf ++ bs }) := by
        rw [completeFrame_eq, ← hresult]
        rfl

end Sys2Proof.Machine
end

