-- ==== Sys2Proof/Proofs/ReadsAndPhase.lean ====
section
/-! Which steps read the transport (R217) and which end an exchange (R219), from what a step can come to. -/

namespace Sys2Proof.Machine

/-- R200: the acceptance step takes nothing from the transport. -/
@[simp] theorem accept_rx (req : Req) (sel : Byte) (s : State) : (accept req sel s).rx = s.rx := by
  obtain ⟨-, h⟩ | ⟨_, -, -, h⟩ | ⟨_, -, -, h⟩ := accept_cases req sel s <;> simp [h]

/-- R200, R201: the acceptance step records its frame, or nothing. -/
theorem accept_trace (req : Req) (sel : Byte) (s : State) :
    (accept req sel s).trace = s.trace ∨ ∃ frame, (accept req sel s).trace = s.trace ++ [.txWrite frame] := by
  obtain ⟨-, h⟩ | ⟨ord, -, -, h⟩ | ⟨ord, -, -, h⟩ := accept_cases req sel s
  · exact .inl (by simp [h])
  · exact .inr ⟨serialize req ord, by simp [h]⟩
  · exact .inr ⟨serialize req ord, by simp [h]⟩

@[simp] theorem completeFrame_trace (s : State) : (completeFrame s).trace = s.trace := by
  rw [completeFrame_eq, finish_trace]

/-- Settles O43: the steps that read start in AwaitingResponse; the others leave the transport as it is and record no
event, an answer to the host, or a frame written. -/
theorem idleBlockReadsNothing : Obligations.IdleBlockReadsNothing := by
  intro s t hidle hstep
  obtain ⟨-, rfl⟩ | hto := step_next hstep
  · simp
  cases hto with
  | waited | transport | answered => simp
  | accepted _ c cs =>
    refine ⟨accept_rx .., fun cap hread => ?_⟩
    obtain htrace | ⟨frame, htrace⟩ := accept_trace c.req c.sel { s with turns := s.turns.tail, port := cs }
    all_goals
      rw [htrace] at hread
      simp at hread
  | timeout _ _ hawaiting | readFailed _ _ hawaiting | grew _ _ _ hawaiting | completed _ _ _ hawaiting =>
    rw [hidle] at hawaiting
    cases hawaiting

/-- Settles O56: the steps that reach Idle from AwaitingResponse are RESET and the three reads that end the exchange;
every other step keeps the phase, or starts in Idle. -/
theorem onlyReadsAndResetEndAnExchange : Obligations.OnlyReadsAndResetEndAnExchange := by
  intro s t hawaiting hstep hidle
  obtain ⟨hreset, -⟩ | hto := step_next hstep
  · exact .inl (List.head?_eq_some_iff.mp hreset)
  cases hto with
  | waited | transport | answered | grew => exact absurd (hawaiting.symm.trans hidle) (by decide)
  | accepted _ _ _ hstart => exact absurd (hawaiting.symm.trans hstart) (by decide)
  | timeout turn _ _ answer | readFailed turn _ _ answer => exact .inr ⟨turn, answer, readCap s, rfl⟩
  | completed turn _ _ _ answer => exact .inr ⟨turn, answer, readCap s, completeFrame_trace _⟩

end Sys2Proof.Machine
end

