-- ==== Sys2Proof/Proofs/ExceptionReplies.lean ====
section
/-! The exception reply to the requested code (R173, R246, R247): five bytes complete the frame whatever length was
expected (R213), and its code decides the result. -/

namespace Sys2Proof.Machine

/-- R246, R247: a code ends the exchange with SLAVE_EXCEPTION or UNKNOWN_SLAVE_EXCEPTION, by whether R172's table maps it,
with the code as detail byte and no payload. -/
theorem finish_decodeException (code : Byte) (s : State) :
    finish (decodeException code) s =
      Claims.ended (if code ∈ [0x01#8, 0x02#8, 0x03#8, 0x04#8, 0x05#8, 0x06#8, 0x0A#8, 0x0B#8] then 0x6#4 else 0x7#4)
        code 0 s := by
  rw [decodeException_eq, finish_of_no_data, exceptionKind_isSome, apply_ite statusCode]
  simp only [statusCode, decide_eq_true_eq]

/-- Every exception reply row's meaning is the arrival of its frame (R80). -/
theorem exec_of_exceptionReply {fc : Byte} {mk : Byte → Byte → Byte → Byte → Instr}
    (h : (fc, mk) ∈ [(0x01#8, Instr.replyException81), (0x02#8, Instr.replyException82),
      (0x03#8, Instr.replyException83), (0x04#8, Instr.replyException84), (0x05#8, Instr.replyException85),
      (0x06#8, Instr.replyException86), (0x0F#8, Instr.replyException8F), (0x10#8, Instr.replyException90)])
    (addr code crcA crcB : Byte) (s : State) :
    exec (mk addr code crcA crcB) s = acceptReply (exceptionFrame fc addr code crcA crcB) s := by
  simp only [List.mem_cons, Prod.mk.injEq, List.not_mem_nil, or_false] at h
  obtain ⟨rfl, rfl⟩ | ⟨rfl, rfl⟩ | ⟨rfl, rfl⟩ | ⟨rfl, rfl⟩ | ⟨rfl, rfl⟩ | ⟨rfl, rfl⟩ | ⟨rfl, rfl⟩ | ⟨rfl, rfl⟩ := h <;>
    exact exec_reply rfl rfl s

/-- R205, R213: an exception reply is complete at its five bytes, whatever length is expected. -/
theorem target_exceptionFrame (fc : Byte) (explen : Nat) (addr code crcA crcB : Byte) :
    target fc explen (exceptionFrame fc addr code crcA crcB) = (exceptionFrame fc addr code crcA crcB).length :=
  target_of_exception rfl

/-- Settles O31: the five bytes are at their target and pass the check, and byte 1 is the exception form of the requested
code, so the result is the decoded code's; the record of accumulated bytes does not enter the kind. -/
theorem exceptionRepliesReportTheirCode : Obligations.ExceptionRepliesReportTheirCode := by
  intro fc mk hmem addr code crcA crcB s hphase rfl hcrc t
  have hfc : s.ctxFc ∈ functionCodes := List.mem_map_of_mem (f := Prod.fst) hmem
  have hparse : parse [addr, s.ctxFc ||| 0x80#8, code] s.ctxFc = decodeException code := parse_of_exception rfl hfc
  have hend : { finish (decodeException code) s with rxbuf := exceptionFrame s.ctxFc addr code crcA crcB } = t := by
    rw [finish_decodeException]
    rfl
  refine ⟨?result, ?kind⟩
  case result =>
    calc exec (mk addr code crcA crcB) s
        = acceptReply (exceptionFrame s.ctxFc addr code crcA crcB) s := exec_of_exceptionReply hmem ..
      _ = .next { finish (parse [addr, s.ctxFc ||| 0x80#8, code] s.ctxFc) s with
            rxbuf := exceptionFrame s.ctxFc addr code crcA crcB } :=
          acceptReply_of_check hphase (target_exceptionFrame ..) (check_of_place hcrc)
      _ = .next t := by rw [hparse, hend]
  case kind =>
    rw [← hend]
    exact resultKind_finish_decodeException code s

end Sys2Proof.Machine
end

