-- ==== Sys2Proof/Proofs/ErrorDetection.lean ====
section
/-! What the checksum is (R104) and what it detects: sealed frames pass their own check (R106, R108), the LowFirst
residue (R109), single-bit errors (R110) and the wrong byte order (R244). -/

namespace Sys2Proof.Machine

/-- Settles O1: the values are evaluated. -/
theorem crcGoldenVectors : Obligations.CrcGoldenVectors := by
  unfold Obligations.CrcGoldenVectors
  decide +kernel

/-- R104: eight single shifts are the eight-fold iterate of the step written out. -/
theorem crcShift8_eq_iterate (c : Word) :
    crcShift8 c = (fun v : Word => if v.getLsbD 0 then (v >>> 1) ^^^ 0xA001#16 else v >>> 1)^[8] c := rfl

/-- Settles O3: the two folds agree byte by byte. -/
theorem crcTableFormEqualsBitSerialForm : Obligations.CrcTableFormEqualsBitSerialForm := by
  intro bs
  simp only [← crcShift8_eq_iterate, ← crcUpdate_eq_shift8]
  rfl

/-! ### Sealed frames -/

/-- R105: a placed checksum is two bytes. -/
theorem exists_place_eq (c : Word) (ord : ChecksumOrder) : ∃ b0 b1, place c ord = [b0, b1] := by
  cases ord <;> exact ⟨_, _, rfl⟩

/-- R108: a sealed body passes the check in its own order. -/
theorem check_sealFrame (body : Bytes) (ord : ChecksumOrder) : check (sealFrame body ord) ord = true := by
  obtain ⟨b0, b1, hplace⟩ := exists_place_eq (crc16 body) ord
  rw [sealFrame, hplace]
  exact check_of_place hplace.symm

/-- Settles O5: `unplace` inverts `place`, and `check` compares the read word with the checksum of the body. -/
theorem sealedFramesPassTheCheck : Obligations.SealedFramesPassTheCheck := by
  refine ⟨fun c ord => ?_, check_sealFrame⟩
  obtain ⟨b0, b1, hplace⟩ := exists_place_eq c ord
  exact ⟨b0, b1, hplace, unplace_place c ord b0 b1 hplace⟩

/-- Settles O6: after the body the fold holds its checksum, and that value fed its own two bytes, low byte first, gives
zero; the HighFirst frame is evaluated. -/
theorem lowFirstResidueIsZero : Obligations.LowFirstResidueIsZero := by
  refine ⟨fun body => ?_, by decide +kernel⟩
  calc crc16 (sealFrame body .lowFirst)
      = crcFrom (crc16 body) [lo8 (crc16 body), hi8 (crc16 body)] := crcFrom_append ..
    _ = 0x0000#16 := crcFrom_self _

/-! ### Single-bit errors -/

/-- The fold step tells two different bytes apart, whatever value it starts from. -/
theorem crcUpdate_byte_injective {c : Word} {x y : Byte} (h : crcUpdate c x = crcUpdate c y) : x = y := by
  rw [crcUpdate_eq_shift8, crcUpdate_eq_shift8] at h
  have hwide : x.setWidth 16 = y.setWidth 16 := (BitVec.xor_right_inj c).mp (crcShift8_injective h)
  simpa using congrArg (BitVec.setWidth 8) hwide

/-- R110: changing one byte changes the checksum, since the two folds differ after that byte and never meet again. -/
theorem crc16_set_ne {body : Bytes} {i : Nat} (hi : i < body.length) {b : Byte} (hb : b ≠ body[i]) :
    crc16 (body.set i b) ≠ crc16 body := by
  intro h
  have hbody : body = body.take i ++ body[i] :: body.drop (i + 1) := by simp
  rw [List.set_eq_take_append_cons_drop, if_pos hi] at h
  conv_rhs at h => rw [hbody]
  simp only [crc16, crcFrom_append, crcFrom_cons] at h
  exact hb (crcUpdate_byte_injective (crcFrom_injective h))

/-- Inverting a bit of a byte gives another byte. -/
theorem xor_bit_ne (b : Byte) {j : Nat} (hj : j < 8) : b ^^^ (1#8 <<< j) ≠ b := by
  intro h
  have hbit : (b ^^^ (1#8 <<< j)).getLsbD j = b.getLsbD j := by rw [h]
  simp [hj] at hbit

/-- Settles O7: the two checksum bytes stay, and the checksum of the changed body is another. -/
theorem singleBitErrorsAreDetected : Obligations.SingleBitErrorsAreDetected := by
  intro f ord i j hi hj hcheck
  obtain ⟨body, b0, b1, rfl⟩ : ∃ body b0 b1, f = body ++ [b0, b1] := ⟨_, _, _, exists_body_append (by omega)⟩
  have hbody : i < body.length := by simpa using hi
  have hother : body[i] ^^^ (1#8 <<< j) ≠ body[i] := xor_bit_ne _ hj
  rw [check_append_eq_true_iff] at hcheck
  rw [List.getD_append _ _ _ _ hbody, List.getD_eq_getElem _ _ hbody, List.set_append_left _ _ hbody, check_append,
    decide_eq_false_iff_not, hcheck]
  exact (crc16_set_ne hbody hother).symm

/-! ### The wrong order -/

/-- R55: exchanging the two bytes of a word gives the word back exactly when they are equal. -/
theorem ofBe16_lo8_hi8_eq_iff (c : Word) : ofBe16 (lo8 c) (hi8 c) = c ↔ hi8 c = lo8 c := by
  constructor
  · intro h
    have hlow := congrArg lo8 h
    rwa [lo8_ofBe16] at hlow
  · intro h
    conv_rhs => rw [← ofBe16_hi8_lo8 c]
    rw [h]

/-- R244: a sealed frame read in the other order has its checksum bytes exchanged. -/
theorem check_sealFrame_other {ord other : ChecksumOrder} (h : ord ≠ other) (body : Bytes) :
    check (sealFrame body ord) other = true ↔ ofBe16 (lo8 (crc16 body)) (hi8 (crc16 body)) = crc16 body := by
  cases ord <;> cases other
  case lowFirst.highFirst => exact check_append_eq_true_iff body _ _ .highFirst
  case highFirst.lowFirst => exact check_append_eq_true_iff body _ _ .lowFirst
  case lowFirst.lowFirst | highFirst.highFirst => exact absurd rfl h

/-- Settles O8: the check in the other order compares the checksum with its bytes exchanged. -/
theorem wrongOrderFailsUnlessBytesAgree : Obligations.WrongOrderFailsUnlessBytesAgree := by
  intro body ord other h
  rw [check_sealFrame_other h, ofBe16_lo8_hi8_eq_iff, ← hi8_toNat, ← lo8_toNat, BitVec.toNat_inj]

end Sys2Proof.Machine
end

