-- ==== Sys2Proof/Proofs/RoundTrip.lean ====
section
/-! Decoding and encoding are inverse to each other (R71 to R80, R84, R88): the nine request rows through their command,
the sixteen reply rows through their three formats. -/

namespace Sys2Proof

open Sys2Proof.Machine

/-! ### Request rows -/

/-- R91, R201: a request row's frame is its command's, in the order its selector names. -/
theorem encode_instrOf (c : Command) : encode (instrOf c) = (selectedOrder c.sel).map (serialize c.req) := by
  obtain ⟨req, sel⟩ := c
  cases req <;> rfl

theorem contextOf_instrOf (c : Command) : contextOf (instrOf c) = (selectedOrder c.sel).map .request := by
  obtain ⟨req, sel⟩ := c
  cases req <;> rfl

/-- R148: a request row is well-formed exactly when its list is admitted. -/
theorem wellFormed_instrOf (c : Command) : (instrOf c).wellFormed = admitted c.req := by
  obtain ⟨req, sel⟩ := c
  cases req <;> rfl

/-- A row read in a checksum order is a command. -/
theorem exists_command_of_request {i : Instr} {ord : ChecksumOrder} (h : contextOf i = some (.request ord)) :
    ∃ c, i = instrOf c := by
  cases hcommand : commandOf i with
  | some c => exact ⟨c, instrOf_of_commandOf hcommand⟩
  | none => cases i <;> cases hcommand <;> cases h

/-- R88: the frame of an admitted request reads back as the command that sent it. -/
theorem decodeRequest_serialize {req : Req} (h : admitted req = true) (ord : ChecksumOrder) :
    decodeRequest ord (serialize req ord) = .ok (instrOf ⟨req, selectorOf ord⟩) := by
  have hlen : (serialize req ord).length = (requestBody req).length + 2 := length_sealFrame ..
  have hbody : (serialize req ord).take ((serialize req ord).length - 2) = requestBody req := by
    rw [hlen, Nat.add_sub_cancel]
    exact List.take_left
  have hcheck : check (serialize req ord) ord = true := check_sealFrame (requestBody req) ord
  rw [decodeRequest, if_neg (by omega), if_pos hcheck, hbody, decodeBody_requestBody req h]

/-- A request frame that decodes is the frame of an admitted command in that order. -/
theorem serialize_of_decodeRequest {ord : ChecksumOrder} {f : Bytes} {i : Instr} (h : decodeRequest ord f = .ok i) :
    ∃ req, i = instrOf ⟨req, selectorOf ord⟩ ∧ admitted req = true ∧ serialize req ord = f := by
  unfold decodeRequest at h
  split at h
  · cases h
  rename_i hlen
  split at h
  · rename_i hcheck
    split at h
    · rename_i req hdecode
      cases h
      obtain ⟨hbody, hadm⟩ := requestBody_of_decodeBody hdecode
      refine ⟨req, rfl, hadm, ?_⟩
      have hsplit := exists_body_append (f := f) (by omega)
      rw [hsplit, check_append_eq_true_iff] at hcheck
      rw [serialize, sealFrame, hbody, ← hcheck, place_unplace, ← hsplit]
    · cases h
  · cases h

/-! ### Reply rows -/

/-- R78 to R81: a row read against a function code is that code's row of one of the three reply formats. -/
theorem replyRow_cases {i : Instr} {fc : Byte} {f : Bytes} (hcontext : contextOf i = some (.reply fc))
    (hencode : encode i = some f) :
    (∃ addr bc data crcA crcB, isRead fc = true ∧ readReplyInstr fc addr bc data crcA crcB = some i ∧
      f = readReplyFrame fc addr bc data crcA crcB) ∨
    (∃ addr echo1 echo2 crcA crcB, fc ∈ [0x05#8, 0x06#8, 0x0F#8, 0x10#8] ∧
      writeReplyInstr fc addr echo1 echo2 crcA crcB = some i ∧ f = writeReplyFrame fc addr echo1 echo2 crcA crcB) ∨
    ∃ addr code crcA crcB, exceptionInstr fc addr code crcA crcB = some i ∧
      f = exceptionFrame fc addr code crcA crcB := by
  cases i with
  | readCoils | readInputs | readHoldingRegisters | readInputRegisters | writeSingleCoil | writeSingleRegister
  | writeMultiCoils | writeMultiRegisters | writeMultiRegistersVendor =>
    obtain ⟨_, -, hrequest⟩ := Option.map_eq_some_iff.mp hcontext
    cases hrequest
  | replyNormal01 | replyNormal02 | replyNormal03 | replyNormal04 =>
    cases hcontext
    cases hencode
    exact .inl ⟨_, _, _, _, _, rfl, rfl, rfl⟩
  | replyNormal05 | replyNormal06 | replyNormal0F | replyNormal10 =>
    cases hcontext
    cases hencode
    exact .inr (.inl ⟨_, _, _, _, _, by decide, rfl, rfl⟩)
  | replyException81 | replyException82 | replyException83 | replyException84 | replyException85 | replyException86
  | replyException8F | replyException90 =>
    cases hcontext
    cases hencode
    exact .inr (.inr ⟨_, _, _, _, rfl, rfl⟩)

theorem mem_functionCodes_of_isRead {fc : Byte} (h : isRead fc = true) : fc ∈ functionCodes := by
  rw [isRead_iff] at h
  revert fc
  decide

/-- R84: byte 1 the requested code, whose exception form is another byte. -/
theorem decodeReply_of_requested {fc : Byte} (h : fc ∈ functionCodes) (addr : Byte) (rest : Bytes) :
    decodeReply fc (addr :: fc :: rest) = decodeNormalReply fc addr rest := by
  simp only [decodeReply, if_neg (exceptionForm_ne h).symm, if_true]

/-- R78: a read reply that `RXBUF` can hold reads back field by field; all between BC and the checksum is data. -/
theorem decodeReply_readReplyFrame {fc : Byte} (hread : isRead fc = true) (addr bc crcA crcB : Byte) {data : Bytes}
    (hlen : data.length ≤ maxReplyData) :
    decodeReply fc (readReplyFrame fc addr bc data crcA crcB) = known (readReplyInstr fc addr bc data crcA crcB) := by
  have hframe : readReplyFrame fc addr bc data crcA crcB = addr :: fc :: bc :: (data ++ [crcA, crcB]) := by
    simp [readReplyFrame]
  have htail : (data ++ [crcA, crcB]).length = data.length + 2 := List.length_append
  rw [hframe, decodeReply_of_requested (mem_functionCodes_of_isRead hread), decodeNormalReply, if_pos hread]
  simp only [htail, Nat.add_sub_cancel, List.take_left]
  rw [if_neg (by omega), if_neg (by omega)]
  simp

/-- R79: a write reply reads back field by field. -/
theorem decodeReply_writeReplyFrame {fc : Byte} (hwrite : fc ∈ [0x05#8, 0x06#8, 0x0F#8, 0x10#8]) (addr : Byte)
    (echo1 echo2 : Word) (crcA crcB : Byte) :
    decodeReply fc (writeReplyFrame fc addr echo1 echo2 crcA crcB) =
      known (writeReplyInstr fc addr echo1 echo2 crcA crcB) := by
  have hframe : writeReplyFrame fc addr echo1 echo2 crcA crcB =
      [addr, fc, hi8 echo1, lo8 echo1, hi8 echo2, lo8 echo2, crcA, crcB] := rfl
  have hnormal : isRead fc ≠ true := by rw [isRead_of_mem_writeCodes hwrite]; exact Bool.false_ne_true
  rw [hframe, decodeReply_of_requested (mem_functionCodes_of_mem_writeCodes hwrite), decodeNormalReply, if_neg hnormal]
  simp only [ofBe16_hi8_lo8]

/-- R80: an exception reply reads back field by field. -/
theorem decodeReply_exceptionFrame (fc addr code crcA crcB : Byte) :
    decodeReply fc (exceptionFrame fc addr code crcA crcB) = known (exceptionInstr fc addr code crcA crcB) := by
  rw [exceptionFrame, decodeReply, if_pos rfl]

/-- R84: the frame of a well-formed reply row reads back as that row, against the code it answers. -/
theorem decodeReply_encode {i : Instr} {fc : Byte} {f : Bytes} (hwf : i.wellFormed = true) (hencode : encode i = some f)
    (hcontext : contextOf i = some (.reply fc)) : decodeReply fc f = .ok i := by
  obtain ⟨addr, bc, data, crcA, crcB, hread, hrow, rfl⟩ | ⟨addr, echo1, echo2, crcA, crcB, hwrite, hrow, rfl⟩ |
    ⟨addr, code, crcA, crcB, hrow, rfl⟩ := replyRow_cases hcontext hencode
  · obtain ⟨-, -, hlen⟩ := encode_of_readReplyInstr hrow
    rw [hwf, eq_comm, decide_eq_true_iff] at hlen
    rw [decodeReply_readReplyFrame hread addr bc crcA crcB hlen, hrow, known]
  · rw [decodeReply_writeReplyFrame hwrite, hrow, known]
  · rw [decodeReply_exceptionFrame, hrow, known]

/-! ### Both directions -/

/-- Settles O15: a row read in a checksum order is a command, whose frame is sealed in the order its selector names; the
other rows are reply rows. -/
theorem decodeInvertsEncode : Obligations.DecodeInvertsEncode := by
  intro i f context hwf hencode hcontext
  cases context with
  | request ord =>
    obtain ⟨c, rfl⟩ := exists_command_of_request hcontext
    rw [contextOf_instrOf] at hcontext
    obtain ⟨ord', hsel, hord⟩ := Option.map_eq_some_iff.mp hcontext
    cases hord
    rw [encode_instrOf, hsel] at hencode
    cases hencode
    rw [wellFormed_instrOf] at hwf
    rw [decode, decodeRequest_serialize hwf, selectorOf_of_selected hsel]
  | reply fc => exact decodeReply_encode hwf hencode hcontext

/-- Settles O16: a request frame that decodes is a sealed body of an admitted request, a reply frame that decodes is the
frame of its row. -/
theorem encodeInvertsDecode : Obligations.EncodeInvertsDecode := by
  intro context f i hdecode
  cases context with
  | request ord =>
    obtain ⟨req, rfl, hadm, hframe⟩ := serialize_of_decodeRequest hdecode
    rw [wellFormed_instrOf, encode_instrOf, contextOf_instrOf, selectedOrder_selectorOf]
    exact ⟨hadm, congrArg some hframe, rfl⟩
  | reply fc =>
    obtain ⟨hencode, hcontext, hwf⟩ := encode_of_decodeReply hdecode
    exact ⟨hwf, hencode, hcontext⟩

/-- Settles O17: the nine frames are evaluated. -/
theorem specFramesDecode : Obligations.SpecFramesDecode := by
  unfold Obligations.SpecFramesDecode
  decide +kernel

end Sys2Proof
end

