-- ==== Sys2Proof/Proofs/StepInvariant.lean ====
section
/-! The invariants of R45 and the ranges of R21 and R51: they hold at reset and every step keeps them. -/

namespace Sys2Proof.Machine

/-- Outside an exchange only the ranges of the registers and of the buffer are left to show. -/
theorem State.Inv.of_idle {s : State} (hphase : s.phase = .idle) (hstatus : s.resStatus.toNat ≤ 8)
    (hcount : s.resCount ≤ 255) (hbuffer : s.rxbuf.length ≤ 131075) : s.Inv where
  exchange hawaiting := by rw [hphase] at hawaiting; cases hawaiting
  doneIdle _ := hphase
  status := hstatus
  count := hcount
  buffer := hbuffer

/-- The invariants speak of the block's own fields only: the transport, the port, the turns and the record are free. -/
theorem State.Inv.with_outside {s : State} (h : s.Inv) (port : List Command) (tx : List TxOutcome)
    (rx : List RxOutcome) (turns : List Turn) (draws : Nat) (trace : List Event) :
    { s with port := port, tx := tx, rx := rx, turns := turns, draws := draws, trace := trace }.Inv where
  exchange hawaiting := by
    obtain ⟨hfc, hlow, hhigh, hbelow⟩ := h.exchange hawaiting
    exact ⟨hfc, hlow, hhigh, hbelow⟩
  doneIdle := h.doneIdle
  status := h.status
  count := h.count
  buffer := h.buffer

/-- A read that leaves the buffer below its target keeps the exchange sound (R207). -/
theorem State.Inv.with_rxbuf {s : State} (h : s.Inv) (hphase : s.phase = .awaitingResponse) {buf : Bytes}
    (hbelow : buf.length < target s.ctxFc s.ctxExplen buf) : { s with rxbuf := buf }.Inv := by
  obtain ⟨hfc, hlow, hhigh, -⟩ := h.exchange hphase
  have htarget := target_le (fc := s.ctxFc) buf hlow
  exact ⟨fun _ => ⟨hfc, hlow, hhigh, hbelow⟩, h.doneIdle, h.status, h.count, show buf.length ≤ 131075 by omega⟩

/-- R215: `finish` leaves a sound state if its data and the buffer are in range. -/
theorem finish_inv {r : Result} {s : State} (hdata : r.data.length ≤ 255) (hbuffer : s.rxbuf.length ≤ 131075) :
    (finish r s).Inv :=
  .of_idle rfl (statusCode_le r.status) hdata hbuffer

theorem raise_inv (e : Status) (info : Byte) {s : State} (hbuffer : s.rxbuf.length ≤ 131075) : (raise e info s).Inv :=
  finish_inv (Nat.zero_le _) hbuffer

/-- R175: a byte count is one byte, so a complete frame's result fits `RES_COUNT`. -/
theorem completeFrame_inv {s : State} (hbuffer : s.rxbuf.length ≤ 131075) : (completeFrame s).Inv := by
  rw [completeFrame_eq]
  exact finish_inv (frameResult_data ..).1 hbuffer

/-- R204: every command's context is in range, and the empty buffer is below any target. -/
theorem enterAwaiting_inv {req : Req} {ord : ChecksumOrder} {s : State} (hdone : s.done = false)
    (hstatus : s.resStatus.toNat ≤ 8) (hcount : s.resCount ≤ 255) : (enterAwaiting req ord s).Inv where
  exchange _ :=
    have ⟨hlow, hhigh⟩ := expectedResponseLength_bounds req
    ⟨functionCode_mem req, hlow, hhigh, Nat.lt_of_lt_of_le (Nat.zero_lt_succ 4) (five_le_target [] hlow)⟩
  doneIdle h := by rw [enterAwaiting_done, hdone] at h; cases h
  status := hstatus
  count := hcount
  buffer := Nat.zero_le _

theorem accept_inv (req : Req) (sel : Byte) {s : State} (h : s.Inv) : (accept req sel s).Inv := by
  obtain ⟨-, haccept⟩ | ⟨ord, -, -, haccept⟩ | ⟨ord, -, -, haccept⟩ := accept_cases req sel s <;> rw [haccept]
  · exact raise_inv _ _ h.buffer
  · exact raise_inv _ _ (by simpa using h.buffer)
  · exact enterAwaiting_inv (by simp) (by simpa using h.status) (by simpa using h.count)

theorem resetBlock_inv (s : State) : (resetBlock s).Inv :=
  .of_idle rfl (Nat.zero_le _) (Nat.zero_le _) (Nat.zero_le _)

/-- R22: the block's turn keeps the invariants, by what a turn can come to in each phase. -/
theorem blockStep_keeps_inv {s t : State} (h : s.Inv) (hstep : blockStep s = .next t) : t.Inv := by
  cases hphase : s.phase with
  | idle =>
    obtain ⟨-, rfl⟩ | ⟨c, cs, -, -, rfl⟩ := blockStep_idle hphase hstep
    · exact h
    · exact accept_inv _ _ (h.with_outside cs s.tx s.rx s.turns s.draws s.trace)
  | awaitingResponse =>
    obtain ⟨-, hlow, hhigh, hbelow⟩ := h.exchange hphase
    obtain ⟨-, he⟩ | ⟨rx, -, he | he | ⟨bs, -, ⟨hshort, he⟩ | ⟨hcomplete, he⟩⟩⟩ :=
      blockStep_below hphase hlow hbelow <;> rw [he] at hstep <;> cases hstep
    · exact h
    · exact raise_inv _ _ h.buffer
    · exact raise_inv _ _ h.buffer
    · exact (h.with_outside s.port s.tx rx s.turns s.draws (s.trace ++ [.rxRead (readCap s)])).with_rxbuf hphase hshort
    · have htarget := target_le (fc := s.ctxFc) (s.rxbuf ++ bs) hlow
      exact completeFrame_inv (show (s.rxbuf ++ bs).length ≤ 131075 by omega)

/-- A host move keeps the invariants: RESET sets them up, the others leave the block's fields as they are. -/
theorem hostMove_keeps_inv {m : HostMove} {s t : State} (h : s.Inv) (hmove : hostMove m s = .next t) : t.Inv := by
  obtain ⟨-, rfl⟩ | ⟨-, rfl⟩ | ⟨a, -, rfl⟩ := hostMove_next hmove
  · exact resetBlock_inv s
  · exact h
  · exact h.with_outside s.port s.tx s.rx s.turns s.draws (s.trace ++ [.answered a])

/-- Settles O49: a step is a turn of the block or a host move, and each keeps the invariants. -/
theorem stepKeepsInv : Obligations.StepKeepsInv := by
  intro s t h hstep
  have hturn (ts : List Turn) : { s with turns := ts }.Inv := h.with_outside s.port s.tx s.rx ts s.draws s.trace
  obtain ⟨-, he⟩ | ⟨ts, -, he⟩ | ⟨m, ts, -, he⟩ := step_cases s <;> rw [he] at hstep
  · exact blockStep_keeps_inv h hstep
  · exact blockStep_keeps_inv (hturn ts) hstep
  · exact hostMove_keeps_inv (hturn ts) hstep

/-- Settles O50: the reset state is idle, its registers zero and its buffer empty. -/
theorem resetHasInv : Obligations.ResetHasInv :=
  .of_idle rfl (Nat.zero_le _) (Nat.zero_le _) (Nat.zero_le _)

end Sys2Proof.Machine
end

