-- ==== Sys2Proof/Proofs/AcceptedCommands.lean ====
section
/-! The acceptance of a command (R200, R202, R204): what its frame is, the exchange it starts, and a busy block, which
holds it (R37, R221). -/

namespace Sys2Proof.Machine

/-! ### Frames by kind -/

/-- R202: a frame is its body and two checksum bytes. -/
@[simp] theorem length_serialize (req : Req) (ord : ChecksumOrder) :
    (serialize req ord).length = (requestBody req).length + 2 := length_sealFrame ..

@[simp] theorem length_requestHeader (addr fc : Byte) (offset field : Word) :
    (requestHeader addr fc offset field).length = 6 := rfl

/-- Settles O12: the header's six bytes, the byte count of one byte or two, the packed operands, the checksum. -/
theorem requestFrameLengths : Obligations.RequestFrameLengths := by
  intro ord addr offset field on coils values
  have headerOnly {req : Req} (h : (requestBody req).length = 6) : (serialize req ord).length = 8 := by
    rw [length_serialize, h]
  refine ⟨headerOnly rfl, headerOnly rfl, headerOnly rfl, headerOnly rfl, headerOnly rfl, headerOnly rfl, ?coils,
    ?values, ?vendor⟩
  case coils =>
    simp only [length_serialize, requestBody, List.length_append, length_requestHeader, List.length_singleton,
      length_pack, ceil8]
    omega
  case values =>
    simp only [length_serialize, requestBody, List.length_append, length_requestHeader, List.length_singleton,
      length_valueBytes]
    omega
  case vendor =>
    simp only [length_serialize, requestBody, List.length_append, length_requestHeader, length_be16, length_valueBytes]
    omega

/-- Settles O13: the codes kind by kind, and byte 1 of the header, which every body begins with. -/
theorem functionCodeIsByteOne : Obligations.FunctionCodeIsByteOne := by
  refine ⟨fun _ _ _ _ _ _ => ⟨rfl, rfl, rfl, rfl, rfl, rfl, rfl, rfl, rfl⟩, fun req ord => ?_⟩
  cases req <;> rfl

/-! ### Acceptance -/

/-- R204: of the three ends of an acceptance step, the one with a valid selector and a write that succeeds. -/
theorem accept_of_write_succeeds {sel : Byte} {ord : ChecksumOrder} (req : Req) {s : State}
    (hsel : selectedOrder sel = some ord) (hok : txOutcome s = .ok) :
    accept req sel s =
      enterAwaiting req ord (txAdvance (record (.txWrite (serialize req ord)) { s with done := false })) := by
  obtain ⟨hnone, -⟩ | ⟨-, -, hfail, -⟩ | ⟨ord', hsel', -, haccept⟩ := accept_cases req sel s
  case inl => rw [hsel] at hnone; cases hnone
  case inr.inl => rw [hok] at hfail; cases hfail
  case inr.inr =>
    obtain rfl : ord = ord' := Option.some.inj (hsel.symm.trans hsel')
    exact haccept

/-- R200, R204: an admitted command offered to an idle block, with a valid selector and a write that succeeds, sends its
sealed body and enters AwaitingResponse with its own context. -/
theorem exec_instrOf_starts {c : Command} {ord : ChecksumOrder} {s : State} (hadm : admitted c.req = true)
    (hidle : s.phase = .idle) (hsel : selectedOrder c.sel = some ord) (hok : Claims.WriteDraws s .ok) :
    exec (instrOf c) s =
      .next (Claims.started (requestBody c.req) ord (functionCode c.req) (expectedResponseLength c.req) s) := by
  calc exec (instrOf c) s
      = exchange c.req c.sel s := exec_instrOf c s
    _ = .next (accept c.req c.sel s) := exchange_idle hadm hidle
    _ = .next (enterAwaiting c.req ord
          (txAdvance (record (.txWrite (serialize c.req ord)) { s with done := false }))) := by
        rw [accept_of_write_succeeds c.req hsel (txOutcome_of_writeDraws hok)]
    _ = _ := by
        rw [txAdvance_eq]
        rfl

/-- Settles O21: the four read commands, whose body is the header alone. -/
theorem readRequestsStartAnExchange : Obligations.ReadRequestsStartAnExchange :=
  fun addr offset count sel _ _ hidle hsel hok =>
    ⟨exec_instrOf_starts (c := ⟨.readCoils addr offset count, sel⟩) rfl hidle hsel hok,
      exec_instrOf_starts (c := ⟨.readInputs addr offset count, sel⟩) rfl hidle hsel hok,
      exec_instrOf_starts (c := ⟨.readHoldingRegisters addr offset count, sel⟩) rfl hidle hsel hok,
      exec_instrOf_starts (c := ⟨.readInputRegisters addr offset count, sel⟩) rfl hidle hsel hok⟩

/-- Settles O22: the two single writes. -/
theorem singleWritesStartAnExchange : Obligations.SingleWritesStartAnExchange :=
  fun addr offset value on sel _ _ hidle hsel hok =>
    ⟨exec_instrOf_starts (c := ⟨.writeSingleCoil addr offset on, sel⟩) rfl hidle hsel hok,
      exec_instrOf_starts (c := ⟨.writeSingleRegister addr offset value, sel⟩) rfl hidle hsel hok⟩

/-- Settles O23: the three multi writes, admitted because their list is within its limit. -/
theorem multiWritesStartAnExchange : Obligations.MultiWritesStartAnExchange :=
  fun addr offset sel _ _ hidle hsel hok =>
    ⟨fun coils hlen => exec_instrOf_starts (c := ⟨.writeMultiCoils addr offset coils, sel⟩) (decide_eq_true hlen) hidle
        hsel hok,
      fun values hlen => exec_instrOf_starts (c := ⟨.writeMultiRegisters addr offset values, sel⟩) (decide_eq_true hlen)
        hidle hsel hok,
      fun values hlen => exec_instrOf_starts (c := ⟨.writeMultiRegistersVendor addr offset values, sel⟩)
        (decide_eq_true hlen) hidle hsel hok⟩

/-- Settles O26: in AwaitingResponse the command goes back to the head of the port. -/
theorem busyBlockHoldsTheCommand : Obligations.BusyBlockHoldsTheCommand := by
  intro c s hadm hawaiting
  rw [exec_instrOf, exchange_busy hadm hawaiting, hold]

end Sys2Proof.Machine
end

