-- ==== Sys2Proof/Proofs/ReplyRows.lean ====
section
/-! The reply rows (R78 to R80) as the frame they are: read replies with their data (R175) or with a byte count past the
frame (R176), replies to another function code (R178), replies off their target and in Idle (log 11). -/

namespace Sys2Proof.Machine

/-- R78 to R80: the frame of a reply row has the 5 bytes of an exception reply, or more. -/
theorem five_le_length_of_reply {i : Instr} {fc : Byte} {f : Bytes} (hcontext : contextOf i = some (.reply fc))
    (hencode : encode i = some f) : 5 ≤ f.length := by
  obtain ⟨_, _, _, _, _, -, -, rfl⟩ | ⟨_, _, _, _, _, -, -, rfl⟩ | ⟨_, _, _, _, -, rfl⟩ :=
    replyRow_cases hcontext hencode
  · simp [readReplyFrame]
  · simp [writeReplyFrame]
  · simp [exceptionFrame]

/-! ### Read replies -/

section
variable {fc : Byte} {mk : Byte → Byte → List Byte → Byte → Byte → Instr}
  (hmem : (fc, mk) ∈ [(0x01#8, Instr.replyNormal01), (0x02#8, Instr.replyNormal02), (0x03#8, Instr.replyNormal03),
    (0x04#8, Instr.replyNormal04)])
include hmem

/-- Every read reply row's meaning is the arrival of its frame (R78). -/
theorem exec_of_readReply (addr bc : Byte) (data : Bytes) (crcA crcB : Byte) (s : State) :
    exec (mk addr bc data crcA crcB) s = acceptReply (readReplyFrame fc addr bc data crcA crcB) s := by
  simp only [List.mem_cons, Prod.mk.injEq, List.not_mem_nil, or_false] at hmem
  obtain ⟨rfl, rfl⟩ | ⟨rfl, rfl⟩ | ⟨rfl, rfl⟩ | ⟨rfl, rfl⟩ := hmem <;> exact exec_reply rfl rfl s

theorem isRead_of_readReply : isRead fc = true :=
  (isRead_iff fc).mpr (List.mem_map_of_mem (f := Prod.fst) hmem)

/-- R210 to R212: a read reply of the expected length that passes the check ends with the parse of its data. -/
theorem exec_readReply_valid {addr bc : Byte} {data : Bytes} {crcA crcB : Byte} {s : State}
    (hphase : s.phase = .awaitingResponse) (hfc : s.ctxFc = fc) (hexplen : s.ctxExplen = 5 + data.length)
    (hcrc : [crcA, crcB] = place (crc16 ([addr, fc, bc] ++ data)) s.ctxOrder) :
    exec (mk addr bc data crcA crcB) s =
      .next { finish (parseRead ([addr, fc, bc] ++ data)) s with rxbuf := [addr, fc, bc] ++ data ++ [crcA, crcB] } := by
  have hread : isRead fc = true := isRead_of_readReply hmem
  have hlen : ([addr, fc, bc] ++ data ++ [crcA, crcB]).length = 5 + data.length := by simp; omega
  have htarget : target s.ctxFc s.ctxExplen ([addr, fc, bc] ++ data ++ [crcA, crcB]) =
      ([addr, fc, bc] ++ data ++ [crcA, crcB]).length := by
    rw [hfc, hlen, ← hexplen]
    exact target_of_normal (by omega) (exceptionForm_ne (mem_functionCodes_of_isRead hread)).symm
  have hparse : parse ([addr, fc, bc] ++ data) s.ctxFc = parseRead ([addr, fc, bc] ++ data) := by
    rw [hfc]
    exact parse_of_read rfl hread
  rw [exec_of_readReply hmem, readReplyFrame, acceptReply_of_check hphase htarget (check_of_place hcrc), hparse]

end

/-- Settles O28: the byte count fits, so the result is OK with the first `bc` data bytes, written from `PAYLOAD[0]`
on. -/
theorem readRepliesReturnTheirData : Obligations.ReadRepliesReturnTheirData := by
  intro fc mk hmem addr bc data crcA crcB s hphase hfc hexplen hcrc hfits
  have hlen : (data.take bc.toNat).length = bc.toNat := List.length_take_of_le hfits
  have hparse : parseRead ([addr, fc, bc] ++ data) = ⟨.ok, 0x00#8, data.take bc.toNat⟩ := parseRead_of_fits hfits
  refine ⟨_, exec_readReply_valid hmem hphase hfc hexplen hcrc, ?fields, fun k hk => ?payload⟩
  case fields =>
    rw [hparse]
    simp only [finish, Claims.ended, statusCode, hlen]
  case payload =>
    rw [hparse]
    refine (getElem_memWrite s.payload (data.take bc.toNat) k hk).trans ?_
    rw [hlen]
    split
    · rename_i hlt
      simp only [List.getD_eq_getElem?_getD, List.getElem?_take_of_lt hlt]
    · rfl

/-- Settles O29: the byte count runs past the data, so the result is LENGTH_ERROR with the byte count as detail. -/
theorem readRepliesWithTooLargeByteCount : Obligations.ReadRepliesWithTooLargeByteCount := by
  intro fc mk hmem addr bc data crcA crcB s hphase hfc hexplen hcrc hshort
  have hparse : parseRead ([addr, fc, bc] ++ data) = ⟨.lengthError, bc, []⟩ := parseRead_of_short hshort
  rw [exec_readReply_valid hmem hphase hfc hexplen hcrc, hparse, finish_of_no_data, statusCode]

/-! ### Replies met in another context -/

/-- Settles O33: byte 1 is not the exception form, so the frame is complete at the expected length; it passes the check,
and the parser finds byte 1 foreign. -/
theorem foreignRepliesAreProtocolErrors : Obligations.ForeignRepliesAreProtocolErrors := by
  intro i a b1 rest crcA crcB fc s hcontext hencode hphase hexplen hne hnexc hcrc
  have hfive := five_le_length_of_reply hcontext hencode
  have hlen : (a :: b1 :: rest ++ [crcA, crcB]).length = rest.length + 4 := by simp
  have htarget : target s.ctxFc s.ctxExplen (a :: b1 :: rest ++ [crcA, crcB]) =
      (a :: b1 :: rest ++ [crcA, crcB]).length := by
    rw [hlen, ← hexplen]
    exact target_of_normal hfive hnexc
  have hparse : parse (a :: b1 :: rest) s.ctxFc = ⟨.protocolError, b1, []⟩ := parse_of_foreign hne hnexc
  calc exec i s
      = acceptReply (a :: b1 :: rest ++ [crcA, crcB]) s := exec_reply hcontext hencode s
    _ = .next { finish (parse (a :: b1 :: rest) s.ctxFc) s with rxbuf := a :: b1 :: rest ++ [crcA, crcB] } :=
        acceptReply_of_check hphase htarget ((check_append_eq_true_iff ..).mpr hcrc)
    _ = _ := by rw [hparse, finish_of_no_data, statusCode]

/-- Settles O34: a frame below its target is kept; of a longer one at least one byte is left over. -/
theorem repliesOffTheirTarget : Obligations.RepliesOffTheirTarget := by
  intro i f fc s hcontext hencode hphase
  rw [exec_reply hcontext hencode, acceptReply_awaiting hphase]
  refine ⟨fun hshort => if_pos hshort, fun hlong => ?_⟩
  have hleft : f.drop (target s.ctxFc s.ctxExplen f) ≠ [] := by
    rw [Ne, List.drop_eq_nil_iff, Nat.not_le]
    exact hlong
  rw [if_neg (by omega), leaveInTransport_of_ne hleft]

/-- R217: a frame that comes while the block is idle joins what the transport holds. -/
theorem acceptReply_idle {f : Bytes} {s : State} (h : s.phase = .idle) :
    acceptReply f s = .next { s with rx := s.rx ++ leaveInTransport f [] } := by
  simp only [acceptReply, h]

/-- Settles O35: the frame has bytes, which stay in the transport. -/
theorem repliesWhileIdleStayInTheTransport : Obligations.RepliesWhileIdleStayInTheTransport := by
  intro i f fc s hcontext hencode hidle
  have hfive := five_le_length_of_reply hcontext hencode
  have hne : f ≠ [] := List.ne_nil_of_length_pos (by omega)
  rw [exec_reply hcontext hencode, acceptReply_idle hidle, leaveInTransport_of_ne hne]

end Sys2Proof.Machine
end

