-- ==== Sys2Proof/Proofs/BlockTurn.lean ====
section
/-! One turn of the block: the instruction it runs (R20 to R22), a read and the bytes it takes (R206, R207), a read
without bytes (R208, R209), and a turn with nothing to do (R262, R281). -/

namespace Sys2Proof.Machine

/-- R22, R37: the turn of an idle block with a command at its port runs that command. -/
theorem blockStep_command {s : State} {c : Command} {cs : List Command} (hidle : s.phase = .idle)
    (hport : s.port = c :: cs) : blockStep s = exec (instrOf c) { s with port := cs } := by
  rw [blockStep, fetch_idle hidle, hport]
  rfl

/-- Settles O36: the turn takes the command at the port, or the read takes the whole chunk and the complete buffer
decodes to the reply row. -/
theorem stepRunsTheInstruction : Obligations.StepRunsTheInstruction := by
  refine ⟨fun s c cs hturn hidle hport => ?command, fun s bs rest i hturn hphase hrx hbs hcap htarget hdecode => ?reply⟩
  case command =>
    exact (step_block hturn).trans (blockStep_command (s := { s with turns := s.turns.tail }) hidle hport)
  case reply =>
    calc step s
        = blockStep { s with turns := s.turns.tail } := step_block hturn
      _ = outcomeOf (rxAppend bs (Claims.afterRead (readCap s) rest s)) := blockStep_of_le_cap hphase hrx hbs hcap
      _ = outcomeOf (.run i { Claims.afterRead (readCap s) rest s with rxbuf := s.rxbuf ++ bs }) := by
          rw [rxAppend_run (s := Claims.afterRead (readCap s) rest s) (Nat.not_lt.mpr htarget) hdecode]
          rfl

/-- Settles O38: the read takes the whole chunk, and the append leaves the buffer short. -/
theorem shortChunkIsAppended : Obligations.ShortChunkIsAppended := by
  intro s bs rest hturn hphase hrx hbs cap hcap hshort
  calc step s
      = blockStep { s with turns := s.turns.tail } := step_block hturn
    _ = outcomeOf (rxAppend bs (Claims.afterRead cap rest s)) := blockStep_of_le_cap hphase hrx hbs hcap
    _ = .next { Claims.afterRead cap rest s with rxbuf := s.rxbuf ++ bs } :=
        congrArg outcomeOf (rxAppend_short (s := Claims.afterRead cap rest s) hshort)

/-! ### The bytes a read takes -/

/-- The state after a read of `bs` by a block whose transport then holds `rx`: the bytes appended, the capacity
recorded. -/
def readBytes (bs : Bytes) (rx : List RxOutcome) (s : State) : State :=
  { record (.rxRead (readCap s)) { s with rx := rx } with rxbuf := s.rxbuf ++ bs }

@[simp] theorem readBytes_rxbuf (bs : Bytes) (rx : List RxOutcome) (s : State) :
    (readBytes bs rx s).rxbuf = s.rxbuf ++ bs := rfl

/-- R206: a sound block that awaits a reply misses at least one byte. -/
theorem one_le_readCap {s : State} (h : s.ExchangeInv) : 1 ≤ readCap s := by
  have hbelow := h.below
  rw [readCap]
  omega

/-- R206, R207, R210: a read by a sound block takes the first bytes the transport holds, as many as are missing; the
buffer then stays below its target, or meets it and is complete. -/
theorem blockStep_takes {s : State} {bs : Bytes} {rest : List RxOutcome} (h : s.ExchangeInv)
    (hphase : s.phase = .awaitingResponse) (hrx : s.rx = .data bs :: rest) (hbs : bs ≠ []) :
    let t := readBytes (bs.take (readCap s)) (leaveInTransport (bs.drop (readCap s)) rest) s
    (t.rxbuf.length < target t.ctxFc t.ctxExplen t.rxbuf ∧ blockStep s = .next t) ∨
      (t.rxbuf.length = target t.ctxFc t.ctxExplen t.rxbuf ∧ blockStep s = .next (completeFrame t)) := by
  intro t
  let before := record (.rxRead (readCap s)) { s with rx := leaveInTransport (bs.drop (readCap s)) rest }
  have hread : blockStep s = outcomeOf (rxAppend (bs.take (readCap s)) before) := blockStep_data hphase hrx hbs
  have hle : t.rxbuf.length ≤ target t.ctxFc t.ctxExplen t.rxbuf :=
    le_target_append h.explenLow h.below (List.length_take_le ..)
  obtain hshort | hcomplete := Nat.lt_or_eq_of_le hle
  · exact .inl ⟨hshort, hread.trans (congrArg outcomeOf (rxAppend_short (s := before) hshort))⟩
  · exact .inr ⟨hcomplete, hread.trans (rxAppend_complete (s := before) hphase hcomplete.symm)⟩

/-- R44: what a read does not take stays first in the transport. -/
theorem leaveInTransport_drop (cap : Nat) (bs : Bytes) (rest : List RxOutcome) :
    leaveInTransport (bs.drop cap) rest = if bs.length ≤ cap then rest else .data (bs.drop cap) :: rest := by
  split
  · rw [List.drop_of_length_le ‹_›, leaveInTransport_nil]
  · exact leaveInTransport_of_ne (by rwa [Ne, List.drop_eq_nil_iff]) rest

@[simp] theorem completeFrame_rxbuf (s : State) : (completeFrame s).rxbuf = s.rxbuf := by
  rw [completeFrame_eq, finish_rxbuf]

@[simp] theorem completeFrame_rx (s : State) : (completeFrame s).rx = s.rx := by
  rw [completeFrame_eq, finish_rx]

/-- Settles O37: whether or not the read completes the frame, the bytes taken, the record and what is left are those of
the read. -/
theorem readsTakeExactlyTheMissingBytes : Obligations.ReadsTakeExactlyTheMissingBytes := by
  intro s bs rest hinv hturn hphase hrx hbs cap
  refine ⟨one_le_readCap (hinv.exchange hphase), ?_⟩
  rw [step_block hturn]
  have hexchange : { s with turns := s.turns.tail }.ExchangeInv :=
    (hinv.with_outside s.port s.tx s.rx s.turns.tail s.draws s.trace).exchange hphase
  have hleft : leaveInTransport (bs.drop cap) rest = if bs.length ≤ cap then rest else .data (bs.drop cap) :: rest :=
    leaveInTransport_drop cap bs rest
  obtain ⟨-, he⟩ | ⟨-, he⟩ := blockStep_takes hexchange hphase hrx hbs
  · exact ⟨_, he, rfl, rfl, hleft⟩
  · exact ⟨_, he, completeFrame_trace _, completeFrame_rxbuf _, (completeFrame_rx _).trans hleft⟩

/-! ### Turns without bytes -/

/-- R208, R209: a read that gives no bytes is error entry, recorded. -/
theorem blockStep_read_error {s : State} {rest : List RxOutcome} {e : Status} (hphase : s.phase = .awaitingResponse)
    (h : (rxRead (readCap s) s.rx = some (.zero, rest) ∧ e = .timeoutError) ∨
      (rxRead (readCap s) s.rx = some (.fail, rest) ∧ e = .transportError)) :
    blockStep s = .next (raise e 0x00#8 (record (.rxRead (readCap s)) { s with rx := rest })) := by
  rw [blockStep, fetch_awaiting hphase, readStep]
  obtain ⟨hread, rfl⟩ | ⟨hread, rfl⟩ := h <;> rw [hread] <;> rfl

/-- R208, R209: the same for a step of the block, as the end of the exchange. -/
theorem step_read_error {s : State} {rest : List RxOutcome} {e : Status} (hturn : Claims.BlockTurn s)
    (hphase : s.phase = .awaitingResponse)
    (h : (rxRead (readCap s) s.rx = some (.zero, rest) ∧ e = .timeoutError) ∨
      (rxRead (readCap s) s.rx = some (.fail, rest) ∧ e = .transportError)) :
    step s = .next (Claims.ended (statusCode e) 0x00#8 0 (Claims.afterRead (readCap s) rest s)) := by
  rw [step_block hturn, blockStep_read_error (s := { s with turns := s.turns.tail }) hphase h, raise_eq]
  rfl

/-- Settles O40: an entry zero and an entry of no bytes are both zero-byte reads. -/
theorem zeroAndFailedReadsEndTheExchange : Obligations.ZeroAndFailedReadsEndTheExchange := by
  intro s rest hturn hphase cap
  refine ⟨?zero, fun hrx => ?failed⟩
  case zero =>
    rintro (hrx | hrx) <;> exact step_read_error hturn hphase (.inl ⟨by rw [hrx]; rfl, rfl⟩)
  case failed => exact step_read_error hturn hphase (.inr ⟨by rw [hrx]; rfl, rfl⟩)

/-- R281: a transport that has not answered leaves the state as it is. -/
theorem blockStep_unanswered {s : State} (hphase : s.phase = .awaitingResponse) (hrx : s.rx = []) :
    blockStep s = .next s := by
  rw [blockStep, fetch_awaiting hphase, readStep, hrx]
  rfl

/-- R262: an idle block with no command leaves the state as it is. -/
theorem blockStep_no_command {s : State} (hidle : s.phase = .idle) (hport : s.port = []) : blockStep s = .next s := by
  rw [blockStep, fetch_idle hidle, hport]
  rfl

/-- Settles O42: the turn is used and comes to nothing. -/
theorem nothingToDoChangesNothing : Obligations.NothingToDoChangesNothing := by
  rintro s hturn (⟨hidle, hport⟩ | ⟨hphase, hrx⟩) <;> rw [step_block hturn]
  · exact blockStep_no_command hidle hport
  · exact blockStep_unanswered hphase hrx

end Sys2Proof.Machine
end

