-- ==== Sys2Proof/Proofs/StepFrames.lean ====
section
/-! What each step may change: the context (R25 to R27), `PAYLOAD` (R214), the results and `DONE` (R29, R31), the frames
it writes (R220, R223) and the port (R37, R218). -/

namespace Sys2Proof.Machine

/-! ### What an acceptance step and a complete frame leave unchanged -/

@[simp] theorem accept_port (req : Req) (sel : Byte) (s : State) : (accept req sel s).port = s.port := by
  obtain ⟨-, h⟩ | ⟨_, -, -, h⟩ | ⟨_, -, -, h⟩ := accept_cases req sel s <;> simp [h]

/-- R214: no acceptance step writes `PAYLOAD`. -/
@[simp] theorem accept_payload (req : Req) (sel : Byte) (s : State) : (accept req sel s).payload = s.payload := by
  obtain ⟨-, h⟩ | ⟨_, -, -, h⟩ | ⟨_, -, -, h⟩ := accept_cases req sel s <;> simp [h]

/-- R204: an acceptance step leaves the context, or records the command's own. -/
theorem accept_context (req : Req) (sel : Byte) (s : State) :
    ((accept req sel s).ctxOrder = s.ctxOrder ∧ (accept req sel s).ctxFc = s.ctxFc ∧
      (accept req sel s).ctxExplen = s.ctxExplen) ∨
    ((accept req sel s).phase = .awaitingResponse ∧ (accept req sel s).rxbuf = [] ∧
      selectedOrder sel = some (accept req sel s).ctxOrder ∧ (accept req sel s).ctxFc = functionCode req ∧
      (accept req sel s).ctxExplen = expectedResponseLength req) := by
  obtain ⟨-, h⟩ | ⟨_, -, -, h⟩ | ⟨ord, hsel, -, h⟩ := accept_cases req sel s <;> rw [h]
  · exact .inl ⟨rfl, rfl, rfl⟩
  · exact .inl (by simp)
  · exact .inr ⟨rfl, rfl, hsel, rfl, rfl⟩

/-- R201, R203, R204: an acceptance step ends the exchange, or starts one with `DONE` cleared and the results as they
were. -/
theorem accept_results (req : Req) (sel : Byte) (s : State) :
    ((accept req sel s).done = true ∧ (accept req sel s).phase = .idle) ∨
    ((accept req sel s).done = false ∧ (accept req sel s).phase = .awaitingResponse ∧
      (accept req sel s).resStatus = s.resStatus ∧ (accept req sel s).resInfo = s.resInfo ∧
      (accept req sel s).resCount = s.resCount) := by
  obtain ⟨-, h⟩ | ⟨_, -, -, h⟩ | ⟨_, -, -, h⟩ := accept_cases req sel s <;> rw [h]
  · exact .inl ⟨rfl, rfl⟩
  · exact .inl ⟨rfl, rfl⟩
  · exact .inr (by simp)

/-- R202, R223: an acceptance step writes nothing, or the command's frame in the order its selector names. -/
theorem accept_writes (req : Req) (sel : Byte) (s : State) :
    (accept req sel s).trace = s.trace ∨
    ∃ ord, selectedOrder sel = some ord ∧ (accept req sel s).trace = s.trace ++ [.txWrite (serialize req ord)] := by
  obtain ⟨-, h⟩ | ⟨ord, hsel, -, h⟩ | ⟨ord, hsel, -, h⟩ := accept_cases req sel s
  · exact .inl (by simp [h])
  · exact .inr ⟨ord, hsel, by simp [h]⟩
  · exact .inr ⟨ord, hsel, by simp [h]⟩

@[simp] theorem completeFrame_phase (s : State) : (completeFrame s).phase = .idle := by
  rw [completeFrame_eq, finish_phase]

@[simp] theorem completeFrame_done (s : State) : (completeFrame s).done = true := by
  rw [completeFrame_eq, finish_done]

@[simp] theorem completeFrame_port (s : State) : (completeFrame s).port = s.port := by
  rw [completeFrame_eq, finish_port]

theorem completeFrame_context (s : State) : (completeFrame s).ctxOrder = s.ctxOrder ∧
    (completeFrame s).ctxFc = s.ctxFc ∧ (completeFrame s).ctxExplen = s.ctxExplen := by
  rw [completeFrame_eq]
  exact ⟨rfl, rfl, rfl⟩

/-- R32, R214: `PAYLOAD` changes only for a read that passes the check and ends with OK, below `RES_COUNT`. -/
theorem completeFrame_payload_ne {s : State} (h : (completeFrame s).payload ≠ s.payload) :
    isRead s.ctxFc = true ∧ check s.rxbuf s.ctxOrder = true ∧ (completeFrame s).resStatus = 0x0#4 ∧
      ∀ (k : Nat) (hk : k < 255), (completeFrame s).resCount ≤ k → (completeFrame s).payload[k] = s.payload[k] := by
  simp only [completeFrame_eq] at h ⊢
  obtain ⟨hok, hdata⟩ := finish_payload_ne h
  obtain ⟨-, hread⟩ := frameResult_data s.rxbuf s.ctxOrder s.ctxFc
  obtain ⟨hcheck, hfc, -⟩ := hread hdata
  exact ⟨hfc, hcheck, (statusCode_eq_zero _).mpr hok, fun k hk => finish_payload_above _ _ k hk⟩

/-- What a step other than RESET comes to. -/
theorem stepTo_of_not_reset {s t : State} (hstep : step s = .next t) (hreset : s.turns.head? ≠ some (.host .reset)) :
    StepTo s t := by
  obtain ⟨h, -⟩ | hto := step_next hstep
  · exact absurd h hreset
  · exact hto

/-! ### Every step -/

/-- Settles O51: only the acceptance step has a case that writes the context. -/
theorem contextChangesOnlyOnAcceptance : Obligations.ContextChangesOnlyOnAcceptance := by
  intro s t hstep hreset
  cases stepTo_of_not_reset hstep hreset with
  | waited | transport | answered | timeout | readFailed | grew => exact .inl ⟨rfl, rfl, rfl⟩
  | completed => exact .inl (completeFrame_context _)
  | accepted turn c cs idle port =>
    obtain hsame | ⟨hphase, hbuf, hsel, hfc, hexplen⟩ :=
      accept_context c.req c.sel { s with turns := s.turns.tail, port := cs }
    · exact .inl hsame
    · exact .inr ⟨c, cs, turn, idle, port, accept_port .., hphase, hbuf, hsel, hfc, hexplen⟩

/-- Settles O52: of the steps only the completion of a frame writes `PAYLOAD`. -/
theorem payloadIsAllOrNothing : Obligations.PayloadIsAllOrNothing := by
  intro s t hstep hreset hne
  cases stepTo_of_not_reset hstep hreset with
  | waited | transport | answered | timeout | readFailed | grew => exact absurd rfl hne
  | accepted _ c cs => exact absurd (accept_payload ..) hne
  | completed _ rx buf awaiting =>
    obtain ⟨hread, hcheck, hok, habove⟩ := completeFrame_payload_ne (s := { readDone rx s with rxbuf := buf }) hne
    refine ⟨awaiting, completeFrame_phase _, completeFrame_done _, hok, (isRead_iff s.ctxFc).mp hread, ?_, habove⟩
    rw [completeFrame_rxbuf]
    exact hcheck

/-- Settles O53: the steps that end an exchange are an acceptance step and the three reads that return to Idle; the one
that clears `DONE` is the acceptance step that enters AwaitingResponse. -/
theorem resultsAreWrittenOnlyByFinish : Obligations.ResultsAreWrittenOnlyByFinish := by
  intro s t hstep hreset
  cases stepTo_of_not_reset hstep hreset with
  | waited | transport | answered | grew =>
    refine ⟨?_, fun hset hclear => absurd (hclear.symm.trans hset) Bool.false_ne_true⟩
    rintro (h | h | h | ⟨hclear, hset⟩)
    · exact absurd rfl h
    · exact absurd rfl h
    · exact absurd rfl h
    · exact absurd (hclear.symm.trans hset) Bool.false_ne_true
  | accepted turn c cs idle port =>
    obtain ⟨hdone, hphase⟩ | ⟨hdone, hphase, hstatus, hinfo, hcount⟩ :=
      accept_results c.req c.sel { s with turns := s.turns.tail, port := cs }
    · refine ⟨fun _ => ⟨turn, hdone, hphase, .inl ⟨idle, c, cs, port, accept_port ..⟩⟩, fun _ hclear => ?_⟩
      exact absurd (hclear.symm.trans hdone) Bool.false_ne_true
    · refine ⟨?_, fun _ _ => ⟨turn, idle, hphase, c, cs, port, accept_port ..⟩⟩
      rintro (h | h | h | ⟨-, hset⟩)
      · exact absurd hstatus h
      · exact absurd hinfo h
      · exact absurd hcount h
      · exact absurd (hdone.symm.trans hset) Bool.false_ne_true
  | timeout turn _ awaiting answer | readFailed turn _ awaiting answer =>
    exact ⟨fun _ => ⟨turn, rfl, rfl, .inr ⟨awaiting, answer, readCap s, rfl⟩⟩, fun _ hclear => by cases hclear⟩
  | completed turn rx buf awaiting answer =>
    refine ⟨fun _ => ⟨turn, completeFrame_done _, completeFrame_phase _,
      .inr ⟨awaiting, answer, readCap s, completeFrame_trace _⟩⟩, fun _ hclear => ?_⟩
    exact absurd (hclear.symm.trans (completeFrame_done _)) Bool.false_ne_true

/-- A trace that grew by another event, or not at all, did not grow by a frame. -/
theorem ne_append_txWrite {trace trace' : List Event}
    (h : trace' = trace ∨ ∃ e, trace' = trace ++ [e] ∧ ∀ frame, e ≠ .txWrite frame) (frame : Bytes) :
    trace' ≠ trace ++ [.txWrite frame] := by
  rintro rfl
  obtain h | ⟨e, h, hne⟩ := h
  · simp at h
  · simp only [List.append_cancel_left_eq, List.cons.injEq, and_true] at h
    exact hne frame h.symm

/-- R37, R223: a step other than an acceptance step leaves the port and records no event, an answer or a read. -/
theorem step_writes_no_frame_or_accepts {s t : State} (hstep : step s = .next t) :
    (t.port = s.port ∧ (t.trace = s.trace ∨ ∃ e, t.trace = s.trace ++ [e] ∧ ∀ frame, e ≠ .txWrite frame)) ∨
    ∃ c cs, s.phase = .idle ∧ s.port = c :: cs ∧
      t = accept c.req c.sel { s with turns := s.turns.tail, port := cs } := by
  obtain ⟨-, rfl⟩ | hto := step_next hstep
  · exact .inl ⟨rfl, .inl rfl⟩
  cases hto with
  | waited | transport => exact .inl ⟨rfl, .inl rfl⟩
  | answered a => exact .inl ⟨rfl, .inr ⟨.answered a, rfl, nofun⟩⟩
  | timeout | readFailed | grew => exact .inl ⟨rfl, .inr ⟨.rxRead (readCap s), rfl, nofun⟩⟩
  | completed => exact .inl ⟨completeFrame_port _, .inr ⟨.rxRead (readCap s), completeFrame_trace _, nofun⟩⟩
  | accepted _ c cs idle port => exact .inr ⟨c, cs, idle, port, rfl⟩

/-- Settles O54: the acceptance step records the command's frame or nothing, and no other step records a frame. -/
theorem oneFramePerAcceptedCommand : Obligations.OneFramePerAcceptedCommand := by
  intro s t hstep
  obtain ⟨-, htrace⟩ | ⟨c, cs, idle, port, rfl⟩ := step_writes_no_frame_or_accepts hstep
  · refine ⟨htrace.imp_right fun ⟨e, he, _⟩ => ⟨e, he⟩, fun frame hframe => ?_⟩
    exact absurd hframe (ne_append_txWrite htrace frame)
  · obtain htrace | ⟨ord, hsel, htrace⟩ := accept_writes c.req c.sel { s with turns := s.turns.tail, port := cs }
    · refine ⟨.inl htrace, fun frame hframe => ?_⟩
      exact absurd hframe (ne_append_txWrite (.inl htrace) frame)
    · refine ⟨.inr ⟨_, htrace⟩, fun frame hframe => ⟨idle, c, cs, ord, port, accept_port .., hsel, ?_⟩⟩
      rw [htrace] at hframe
      simpa using hframe.symm

/-- Settles O55: an acceptance step starts in Idle, and the others leave the port and write no frame. -/
theorem busyBlockAcceptsNoCommand : Obligations.BusyBlockAcceptsNoCommand := by
  intro s t hawaiting hstep
  obtain ⟨hport, htrace⟩ | ⟨_, _, hidle, -⟩ := step_writes_no_frame_or_accepts hstep
  · exact ⟨hport, ne_append_txWrite htrace⟩
  · exact absurd (hawaiting.symm.trans hidle) (by decide)

end Sys2Proof.Machine
end

