-- ==== Sys2Proof/Proofs/WholeExchanges.lean ====
section
/-! Whole exchanges: they end if the transport answers (R216, R281), and end alike however a reply is split (R207). -/

namespace Sys2Proof.Machine

/-- A run goes on from the next state. -/
theorem run_succ {s s' : State} (h : step s = .next s') (k : Nat) : core.run (k + 1) s = core.run k s' := by
  have hcore : core.step s = .next s' := h
  simp only [Host.Core.run, hcore]

/-- With no turn listed the block moves, and no turn is used (R20). -/
theorem step_of_no_turns {s : State} (h : s.turns = []) : step s = blockStep s := by
  unfold step
  rw [h]

/-- R206: a sound block that awaits a reply misses bytes to the expected length. -/
theorem rxbuf_lt_explen {s : State} (h : s.ExchangeInv) : s.rxbuf.length < s.ctxExplen :=
  Nat.lt_of_lt_of_le h.below (target_le s.rxbuf h.explenLow)

/-- R216, R281: with `n` answers to come and at most `n` bytes missing, at most `n` reads end the exchange: each ends it
or brings a byte. -/
theorem exchange_ends_within (n : Nat) {s : State} (hinv : s.Inv) (hphase : s.phase = .awaitingResponse)
    (hturns : s.turns = []) (hmissing : s.ctxExplen - s.rxbuf.length ≤ n) (hanswers : n ≤ s.rx.length) :
    ∃ k t, k ≤ n ∧ core.run k s = .next t ∧ t.phase = .idle ∧ t.done = true := by
  induction n generalizing s with
  | zero =>
    have hlt := rxbuf_lt_explen (hinv.exchange hphase)
    omega
  | succ n ih =>
    have hexchange := hinv.exchange hphase
    have hturn := step_of_no_turns hturns
    have ends {t : State} (he : blockStep s = .next t) (hidle : t.phase = .idle) (hdone : t.done = true) :
        ∃ k t, k ≤ n + 1 ∧ core.run k s = .next t ∧ t.phase = .idle ∧ t.done = true :=
      ⟨1, t, Nat.succ_le_succ (Nat.zero_le n), run_succ (hturn.trans he) 0, hidle, hdone⟩
    obtain ⟨hrx, -⟩ | ⟨rx, hrest, he | he | ⟨bs, hbs, ⟨-, he⟩ | ⟨-, he⟩⟩⟩ :=
      blockStep_below hphase hexchange.explenLow hexchange.below
    · rw [hrx] at hanswers
      cases hanswers
    · exact ends he rfl rfl
    · exact ends he rfl rfl
    · have hstep := hturn.trans he
      have hless : s.ctxExplen - (s.rxbuf ++ bs).length ≤ n := by
        rw [List.length_append]
        omega
      have hleft : n ≤ rx.length := by omega
      obtain ⟨k, t, hk, hrun, hend⟩ := ih (stepKeepsInv _ _ hinv hstep) hphase hturns hless hleft
      exact ⟨k + 1, t, Nat.succ_le_succ hk, (run_succ hstep k).trans hrun, hend⟩
    · exact ends he (completeFrame_phase _) (completeFrame_done _)

/-- Settles O57: the bound is the number of missing bytes. -/
theorem exchangesEnd : Obligations.ExchangesEnd :=
  fun _ hinv hphase hturns hanswers => exchange_ends_within _ hinv hphase hturns (Nat.le_refl _) hanswers

/-! ### Chunking -/

/-- The transport gives `chunks` first, `rest` after them, and the chunks complete the frame. -/
structure CompletedBy (s : State) (chunks : List Bytes) (rest : List RxOutcome) : Prop where
  nonempty : ∀ chunk ∈ chunks, chunk ≠ []
  rx : s.rx = chunks.map .data ++ rest
  complete : target s.ctxFc s.ctxExplen (s.rxbuf ++ chunks.flatten) = (s.rxbuf ++ chunks.flatten).length

/-- R44: what a read leaves of the chunks is chunks again, and with the bytes taken they are the bytes of before. -/
theorem exists_chunks_left (cap : Nat) {chunk : Bytes} {chunks : List Bytes} (rest : List RxOutcome)
    (h : ∀ c ∈ chunks, c ≠ []) :
    ∃ left : List Bytes, (∀ c ∈ left, c ≠ []) ∧
      leaveInTransport (chunk.drop cap) (chunks.map .data ++ rest) = left.map .data ++ rest ∧
      chunk.take cap ++ left.flatten = chunk ++ chunks.flatten := by
  by_cases hdrop : chunk.drop cap = []
  · refine ⟨chunks, h, by rw [hdrop, leaveInTransport_nil], ?_⟩
    rw [List.take_of_length_le (List.drop_eq_nil_iff.mp hdrop)]
  · refine ⟨chunk.drop cap :: chunks, List.forall_mem_cons.mpr ⟨hdrop, h⟩, leaveInTransport_of_ne hdrop _, ?_⟩
    rw [List.flatten_cons, ← List.append_assoc, List.take_append_drop]

/-- R210: a complete frame's end depends on the transport and the record only in what it leaves of them. -/
theorem completeFrame_of_read (buf bs : Bytes) (rx rest : List RxOutcome) (trace : List Event) (s : State) :
    { completeFrame { readBytes bs rx s with rxbuf := buf } with rx := rest, trace := trace } =
      { completeFrame { s with rxbuf := buf } with rx := rest, trace := trace } := by
  rw [completeFrame_eq, completeFrame_eq]
  rfl

/-- R210: a frame that a read completes ends as it does with its bytes there from the start, but for the transport and
the record. -/
theorem completeFrame_readBytes (bs : Bytes) (rx : List RxOutcome) (s : State) :
    completeFrame (readBytes bs rx s) =
      { completeFrame { s with rxbuf := s.rxbuf ++ bs } with
        rx := rx, trace := (completeFrame (readBytes bs rx s)).trace } := by
  rw [completeFrame_eq, completeFrame_eq]
  rfl

/-- No chunk holds bytes past a buffer that has met its target (R205: the target stays once 5 bytes are there). -/
theorem CompletedBy.eq_nil {s : State} {chunks : List Bytes} {rest : List RxOutcome} (h : CompletedBy s chunks rest)
    (hlow : 5 ≤ s.ctxExplen) (hmet : s.rxbuf.length = target s.ctxFc s.ctxExplen s.rxbuf) : chunks = [] := by
  have hfive : 5 ≤ s.rxbuf.length := hmet ▸ five_le_target s.rxbuf hlow
  have hcomplete := h.complete
  rw [target_append _ hfive, List.length_append] at hcomplete
  have hflat : chunks.flatten = [] := List.eq_nil_of_length_eq_zero (by omega)
  exact List.eq_nil_iff_forall_not_mem.mpr fun c hc => h.nonempty c hc (List.flatten_eq_nil_iff.mp hflat c hc)

/-- R207: from every sound state the chunks lead, in some number of steps, to the end of the frame they make: each read
leaves fewer bytes to come, until the buffer meets its target. -/
theorem run_chunks {s : State} {chunks : List Bytes} {rest : List RxOutcome} (hinv : s.Inv)
    (hphase : s.phase = .awaitingResponse) (hturns : s.turns = []) (h : CompletedBy s chunks rest) :
    ∃ k t, core.run k s = .next t ∧
      t = { completeFrame { s with rxbuf := s.rxbuf ++ chunks.flatten } with rx := rest, trace := t.trace } := by
  induction hbytes : chunks.flatten.length using Nat.strong_induction_on generalizing s chunks with
  | h n ih =>
    have hexchange := hinv.exchange hphase
    have hbelow := hexchange.below
    match chunks with
    | [] =>
      have hcomplete := h.complete
      rw [List.flatten_nil, List.append_nil] at hcomplete
      omega
    | chunk :: chunks =>
      obtain ⟨hchunk, hchunks⟩ := List.forall_mem_cons.mp h.nonempty
      obtain ⟨left, hleft, hheld, hsame⟩ := exists_chunks_left (readCap s) (chunk := chunk) rest hchunks
      let s1 := readBytes (chunk.take (readCap s)) (left.map .data ++ rest) s
      have hbuf : s1.rxbuf ++ left.flatten = s.rxbuf ++ (chunk :: chunks).flatten := by
        rw [readBytes_rxbuf, List.append_assoc, hsame, List.flatten_cons]
      have h1 : CompletedBy s1 left rest := ⟨hleft, rfl, by rw [hbuf]; exact h.complete⟩
      have hrx : s.rx = .data chunk :: (chunks.map .data ++ rest) := h.rx
      have hturn := blockStep_takes hexchange hphase hrx hchunk
      rw [hheld, ← step_of_no_turns hturns] at hturn
      obtain ⟨-, hstep⟩ | ⟨hmet, hstep⟩ := hturn
      · have hfewer : left.flatten.length < n := by
          have hcap := one_le_readCap hexchange
          have hpos := List.length_pos_of_ne_nil hchunk
          have hlen := congrArg List.length hsame
          simp only [List.length_append, List.length_take] at hlen
          rw [List.flatten_cons, List.length_append] at hbytes
          omega
        obtain ⟨k, t, hrun, ht⟩ := ih _ hfewer (stepKeepsInv _ _ hinv hstep) hphase hturns h1 rfl
        rw [hbuf] at ht
        exact ⟨k + 1, t, (run_succ hstep k).trans hrun, ht.trans (completeFrame_of_read ..)⟩
      · obtain rfl := h1.eq_nil hexchange.explenLow hmet
        rw [List.flatten_nil, List.append_nil] at hbuf
        refine ⟨1, completeFrame s1, run_succ hstep 0, ?_⟩
        rw [← hbuf]
        exact completeFrame_readBytes _ rest s

/-- Settles O58: the chunks are the bytes that complete the frame. -/
theorem chunkingDoesNotChangeTheResult : Obligations.ChunkingDoesNotChangeTheResult :=
  fun _ _ _ hinv hphase hturns hnonempty hrx hcomplete => run_chunks hinv hphase hturns ⟨hnonempty, hrx, hcomplete⟩

end Sys2Proof.Machine
end

