-- ==== Sys2Proof/Proofs/HostMoves.lean ====
section
/-! The host's moves: RESET (R270, R271), queries (R38, R181), reads of the result ports (R23, R39), opening and closing
the transport (R43, R276). -/

namespace Sys2Proof.Machine

/-- R20: a host move that stands first among the turns is the step. -/
theorem step_host {s : State} {m : HostMove} {ts : List Turn} (h : s.turns = .host m :: ts) :
    step s = hostMove m { s with turns := ts } := by
  unfold step
  rw [h]

/-! ### RESET -/

/-- Settles O44: RESET sets the block's fields and leaves what is outside the block. -/
theorem resetAbandonsTheExchange : Obligations.ResetAbandonsTheExchange :=
  fun s ts hturns => ⟨resetBlock { s with turns := ts }, step_host hturns, rfl, rfl, rfl, rfl, rfl, rfl, rfl, rfl, rfl⟩

/-- Settles O45: the three values as `State.reset` gives them. -/
theorem resetState : Obligations.ResetState := ⟨rfl, rfl, rfl⟩

/-! ### Queries -/

theorem step_query_answered {s : State} {q : Query} {ts : List Turn} {a : Answer}
    (hturns : s.turns = .host (.query q) :: ts) (h : answerQuery q = .ok a) :
    step s = .next { s with turns := ts, trace := s.trace ++ [.answered a] } := by
  rw [step_host hturns, hostMove, h]
  rfl

theorem step_query_refused {s : State} {q : Query} {ts : List Turn} {r : Refusal}
    (hturns : s.turns = .host (.query q) :: ts) (h : answerQuery q = .error r) : step s = .refused r := by
  rw [step_host hturns, hostMove, h]

/-- Settles O46: each query's answer or refusal is `answerQuery` of its arguments, which reads no state. -/
theorem queriesDisturbNothing : Obligations.QueriesDisturbNothing := by
  intro s q ts hturns
  refine ⟨fun a hanswer => step_query_answered hturns ?answered,
    fun raw fc hq hdomain => step_query_refused hturns ?domain,
    fun req ord hq hadm => step_query_refused hturns ?notAdmitted⟩
  case answered =>
    obtain ⟨bs, rfl, rfl⟩ | ⟨req, ord, rfl, hadm, rfl⟩ | ⟨req, rfl, hadm, rfl⟩ | ⟨req, rfl, hadm, rfl⟩ |
      ⟨raw, fc, rfl, hlen, hfc, rfl⟩ | ⟨code, rfl, rfl⟩ := hanswer
    · rfl
    · exact if_pos hadm
    · exact if_pos hadm
    · exact if_pos hadm
    · exact if_pos ⟨hlen, hfc⟩
    · rfl
  case domain =>
    subst hq
    refine if_neg fun ⟨hlen, hfc⟩ => ?_
    obtain hshort | hforeign := hdomain
    · omega
    · exact hforeign hfc
  case notAdmitted =>
    have hnot : ¬ admitted req = true := by rw [hadm]; exact Bool.false_ne_true
    obtain rfl | rfl | rfl := hq <;> exact if_neg hnot

/-! ### Result ports -/

theorem step_read_answered {s : State} {p : ResultPort} {ts : List Turn} {a : Answer}
    (hturns : s.turns = .host (.read p) :: ts) (h : readPort p s = .ok a) :
    step s = .next { s with turns := ts, trace := s.trace ++ [.answered a] } := by
  have hread : readPort p { s with turns := ts } = .ok a := by cases p <;> exact h
  rw [step_host hturns, hostMove, hread]
  rfl

theorem step_read_faults {s : State} {p : ResultPort} {ts : List Turn} {f : Fault}
    (hturns : s.turns = .host (.read p) :: ts) (h : readPort p s = .error f) : step s = .fault f := by
  have hread : readPort p { s with turns := ts } = .error f := by cases p <;> exact h
  rw [step_host hturns, hostMove, hread]

/-- R32: a byte of `PAYLOAD` as its list gives it. -/
theorem getD_payload (payload : Vector Byte 255) {k : Nat} (h : k < 255) : payload.toList.getD k 0#8 = payload[k] := by
  simp [List.getD_eq_getElem?_getD, h]

/-- Settles O47: `readPort` port by port, by `DONE`, the status and the count. -/
theorem resultPortsFollowDone : Obligations.ResultPortsFollowDone := by
  intro s p ts hturns
  refine ⟨?done, ?status, ?info, ?count, ?notReady, ?payload, ?notReadable⟩
  case done => rintro rfl; exact step_read_answered hturns rfl
  case status => rintro rfl hdone; exact step_read_answered hturns (if_pos hdone)
  case info => rintro rfl hdone; exact step_read_answered hturns (if_pos hdone)
  case count => rintro rfl hdone; exact step_read_answered hturns (if_pos hdone)
  case notReady =>
    intro hp hdone
    have hnot : ¬ s.done = true := by rw [hdone]; exact Bool.false_ne_true
    refine step_read_faults hturns ?_
    obtain rfl | rfl | rfl := hp <;> exact if_neg hnot
  case payload =>
    rintro k hk rfl hdone hok hcount
    rw [← getD_payload s.payload hk]
    exact step_read_answered hturns (if_pos ⟨hdone, hok, hcount⟩)
  case notReadable =>
    rintro k rfl hbad
    refine step_read_faults hturns (if_neg fun ⟨hdone, hok, hcount⟩ => ?_)
    obtain hnot | herror | hbeyond := hbad
    · rw [hnot] at hdone
      cases hdone
    · exact herror hok
    · omega

/-- R23: a port shows `DONE`, the result registers and `PAYLOAD`, and no other field. -/
theorem readPort_congr (p : ResultPort) {s s' : State} (hdone : s'.done = s.done) (hstatus : s'.resStatus = s.resStatus)
    (hinfo : s'.resInfo = s.resInfo) (hcount : s'.resCount = s.resCount) (hpayload : s'.payload = s.payload) :
    readPort p s' = readPort p s := by
  cases p <;> simp only [readPort, hdone, hstatus, hinfo, hcount, hpayload]

/-- Settles O59: both reads have the answer, or the fault, of the one port. -/
theorem hostReadsShowOnlyTheResult : Obligations.HostReadsShowOnlyTheResult := by
  intro s s' p ts ts' hturns hturns' hdone hstatus hinfo hcount hpayload
  have hsame := readPort_congr p hdone hstatus hinfo hcount hpayload
  cases hread : readPort p s with
  | ok a => exact .inl ⟨a, step_read_answered hturns hread, step_read_answered hturns' (hsame.trans hread)⟩
  | error f => exact .inr ⟨f, step_read_faults hturns hread, step_read_faults hturns' (hsame.trans hread)⟩

/-! ### The transport -/

/-- R30: BUSY is the phase. -/
theorem busy_iff (s : State) : busy s = true ↔ s.phase = .awaitingResponse := decide_eq_true_iff

/-- Settles O48: closing is decided by BUSY, which does not read the turns; opening always leaves the block as it is. -/
theorem closeOnlyWhileNotBusy : Obligations.CloseOnlyWhileNotBusy := by
  refine fun s => ⟨busy_iff s, fun ts => ⟨fun hturns => ⟨fun hbusy => ?busy, fun hfree => ?free⟩, step_host⟩⟩
  case busy => exact (step_host hturns).trans (if_pos hbusy)
  case free => exact (step_host hturns).trans (if_neg (Bool.eq_false_iff.mp hfree))

end Sys2Proof.Machine
end
